-- ==== Sys2Proof/Word.lean ====
section
/-! DEFINITION. The two wire formats of the block: the 64-bit binary64 word (30_encoding.md R40) and the
132-position FloatRepr bundle (30_encoding.md R45, 10_state.md R14). -/

namespace Sys2Proof

/-- A binary64 word: bit 63 sign, bits 62..52 exponent field, bits 51..0 fraction field (R40). -/
abbrev Word := BitVec 64

/-- A FloatRepr bundle written out in the order class, sign, exponent, significand, rawBits
(3 + 1 + 11 + 53 + 64 positions, R45), the first-written position the most significant (log 4). -/
abbrev Bundle := BitVec 132

end Sys2Proof
end

