-- ==== Sys2Proof/Config.lean ====
section
/-! DEFINITION. What is fixed for the block: the constants of 00_scope.md R6 and the one open parameter of R7. -/

namespace Sys2Proof.Config

/-- `BIAS` (R6): the exponent bias. -/
@[simp] abbrev bias : Int := 1023

/-- `EMIN` (R6): the exponent of subnormals and of the smallest normal, 1 - bias. -/
@[simp] abbrev eMin : Int := -1022

/-- `EMAX` (R6): the largest normal exponent. -/
@[simp] abbrev eMax : Int := 1023

/-- `EXPF_SPECIAL` (R6): the exponent field of infinities and NaNs. -/
@[simp] abbrev expfSpecial : Nat := 2047

/-- `FRAC_W` (R6): the width of the fraction field; also the position of the hidden bit. -/
@[simp] abbrev fracW : Nat := 52

/-- `SIG_W` (R6): the width of a significand with its hidden bit. -/
@[simp] abbrev sigW : Nat := 53

/-- `PROD_W` (R6): the width of the significand product. -/
@[simp] abbrev prodW : Nat := 106

/-- `ZERO_SHIFT_LIMIT` (R6, R111): the underflow shift amount from which the result is Zero without shifting. -/
@[simp] abbrev zeroShiftLimit : Nat := 64

/-- The free value behind `INVALID_NAN_FRACTION`: one of 2^52 - 1 codes, no body, so nothing can be proved of
which one (R7, D6, U4; log 6). -/
opaque invalidNanCode : Fin 4503599627370495

/-- `INVALID_NAN_FRACTION` (R7): the fraction of the NaN made for Infinity x Zero, constant per instance, anywhere
in 1 .. 2^52 - 1 (D6; log 6). -/
def invalidNanFraction : Nat := invalidNanCode.val + 1

end Sys2Proof.Config
end

