-- ==== Sys2Proof/Syntax.lean ====
section
/-! DEFINITION. The FloatRepr record, the instructions (one constructor per row of spec/opcode_table.json), and
what the host drives: raw operand bits at the ports of one sub-block. -/

namespace Sys2Proof

/-- The class of a FloatRepr: a closed tagged variant of five cases, in the order the spec lists and codes them
(10_state.md R13, R14). -/
inductive FloatClass where
  | normal
  | subnormal
  | zero
  | infinity
  | nan
  deriving DecidableEq, Repr

/-- A FloatRepr (10_state.md R13), with the semantic types R14 advises: Boolean sign, integer exponent, natural
significand (log 11). -/
structure FloatRepr where
  rawBits     : Word
  sign        : Bool
  exponent    : Int
  significand : Nat
  cls         : FloatClass
  deriving DecidableEq, Repr

/-- The two decomposer instances, one per operand (10_state.md R15, 92_eei_decisions.md D2), named after the operand
ports `a_bits` and `b_bits`. -/
inductive DecomposerId where
  | a
  | b
  deriving DecidableEq, Repr

/-- A word at the `value` port of one decomposer. -/
structure WordAt where
  unit : DecomposerId
  word : Word
  deriving DecidableEq, Repr

/-- The sign bit of a word at one decomposer: no class row constrains either (R42). -/
structure SignAt where
  unit : DecomposerId
  sign : Bool
  deriving DecidableEq, Repr

/-- The rows of spec/opcode_table.json. The four operations are those of 30_encoding.md R46. A class row (R42) is
the decomposition of a word of that class, written by the fields the row leaves free (log 3). DECOMPOSE and the class
rows carry the decomposer instance that is driven (R15; log 13). -/
inductive Instr where
  /-- `DECOMPOSE x` (40_decompose.md R60). -/
  | decompose (x : WordAt)
  /-- `COMPOSE r` (41_compose.md R71). -/
  | compose (r : FloatRepr)
  /-- `MULTIPLY a, b` (42_multiply_special.md R80). -/
  | multiply (a b : FloatRepr)
  /-- `FMUL64 x, y` (44_fmul64.md R130). -/
  | fmul64 (x y : Word)
  /-- `class.Zero` (R42): E = 0, F = 0. -/
  | classZero (sign : SignAt)
  /-- `class.Subnormal` (R42): E = 0, F /= 0. -/
  | classSubnormal (sign : SignAt) (frac : BitVec 52)
  /-- `class.Normal` (R42): 1 <= E <= 2046, any F. -/
  | classNormal (sign : SignAt) (field : BitVec 11) (frac : BitVec 52)
  /-- `class.Infinity` (R42): E = 2047, F = 0. -/
  | classInfinity (sign : SignAt)
  /-- `class.NaN` (R42): E = 2047, F /= 0. -/
  | classNaN (sign : SignAt) (frac : BitVec 52)
  deriving DecidableEq, Repr

/-- What the host drives: the input ports of ONE sub-block, as raw bits. Which ports are driven is what selects
the operation; there is no opcode (30_encoding.md R47, 10_state.md R15; log 2). -/
inductive Drive where
  /-- The `value` port of one decomposer. -/
  | decomposer (d : DecomposerId) (value : Word)
  /-- The recomposer's `repr` port. -/
  | recomposer (repr : Bundle)
  /-- The multiplier's `a` and `b` ports. -/
  | multiplier (a b : Bundle)
  /-- The top level's `a_bits` and `b_bits` ports. -/
  | top (aBits bBits : Word)
  /-- The `value` port of one decomposer, read through the five class rows of the opcode table (log 3). -/
  | classifier (d : DecomposerId) (value : Word)
  deriving DecidableEq, Repr

/-- The sub-blocks of 10_state.md R15, the two decomposers apart, and the top level. -/
inductive SubBlock where
  | decomposer (d : DecomposerId)
  | recomposer
  | multiplier
  | top
  deriving DecidableEq, Repr

/-- The sub-block whose ports a drive presents operands at. -/
def Drive.subBlock : Drive → SubBlock
  | .decomposer d _ => .decomposer d
  | .recomposer _ => .recomposer
  | .multiplier _ _ => .multiplier
  | .top _ _ => .top
  | .classifier d _ => .decomposer d

/-- The sub-block that evaluates an instruction. -/
def Instr.subBlock : Instr → SubBlock
  | .decompose x => .decomposer x.unit
  | .compose _ => .recomposer
  | .multiply _ _ => .multiplier
  | .fmul64 _ _ => .top
  | .classZero sign => .decomposer sign.unit
  | .classSubnormal sign _ => .decomposer sign.unit
  | .classNormal sign _ _ => .decomposer sign.unit
  | .classInfinity sign => .decomposer sign.unit
  | .classNaN sign _ => .decomposer sign.unit

end Sys2Proof
end

