-- ==== Sys2Proof/WellFormed.lean ====
section
/-! DEFINITION. Well-formed instructions: the terms that have an encoding. A record must fit the bundle's signals
(10_state.md R14); the fields of a class row must form a word of that class (30_encoding.md R42). Whether a record
is in an operation's DOMAIN is another question, asked by the operation (Machine/Operands.lean). -/

namespace Sys2Proof

/-- The record fits the bundle: an 11-bit two's-complement exponent and a 53-bit significand (R14). -/
def FloatRepr.fits (r : FloatRepr) : Bool :=
  decide (-1024 ≤ r.exponent) && decide (r.exponent ≤ 1023) && decide (r.significand < 2 ^ 53)

/-- The instruction has an encoding. -/
def Instr.wellFormed : Instr → Bool
  | .decompose _ => true
  | .compose r => r.fits
  | .multiply a b => a.fits && b.fits
  | .fmul64 _ _ => true
  | .classZero _ => true
  | .classSubnormal _ frac => decide (frac ≠ 0#52)
  | .classNormal _ field _ => decide (field ≠ 0#11) && decide (field ≠ 2047#11)
  | .classInfinity _ => true
  | .classNaN _ frac => decide (frac ≠ 0#52)

end Sys2Proof
end

