-- ==== Sys2Proof/Decode.lean ====
section
/-! DEFINITION. From driven wires to an instruction and back: field extraction (30_encoding.md R41), the class
codes (10_state.md R14), the bundle (R45), the class rows of the opcode table with their masks (R42), the decoder
(total, rejecting by name) and the encoder. -/

namespace Sys2Proof

/-! ### The binary64 word (R40, R41) -/

/-- `s = x[63]`. -/
def signField (x : Word) : Bool := x.getLsbD 63

/-- `E = x[62:52]`. -/
def expField (x : Word) : BitVec 11 := x.extractLsb' 52 11

/-- `F = x[51:0]`. -/
def fracField (x : Word) : BitVec 52 := x.extractLsb' 0 52

/-- The word with the given sign, exponent field and fraction: `s eeeeeeeeeee ffff...` (R40). -/
def wordOf (sign : Bool) (field : BitVec 11) (frac : BitVec 52) : Word :=
  BitVec.ofBool sign ++ field ++ frac

/-! ### The FloatRepr bundle (R14, R45) -/

/-- The class codes of R14: 0 Normal, 1 Subnormal, 2 Zero, 3 Infinity, 4 NaN. -/
def classCode : FloatClass → BitVec 3
  | .normal => 0#3
  | .subnormal => 1#3
  | .zero => 2#3
  | .infinity => 3#3
  | .nan => 4#3

/-- The class a code stands for; 5, 6 and 7 are reserved (R14, R51). -/
def classOfCode (c : BitVec 3) : Option FloatClass :=
  if c = 0#3 then some .normal
  else if c = 1#3 then some .subnormal
  else if c = 2#3 then some .zero
  else if c = 3#3 then some .infinity
  else if c = 4#3 then some .nan
  else none

/-- The bundle of a record, in the writing order of R45. -/
def bundleOf (r : FloatRepr) : Bundle :=
  classCode r.cls ++ BitVec.ofBool r.sign ++ BitVec.ofInt 11 r.exponent ++ BitVec.ofNat 53 r.significand ++ r.rawBits

/-- Why a drive decodes to no instruction. -/
inductive DecodeError where
  /-- A bundle's `class` signal holds 5, 6 or 7 (R51; 93_implementation_defined.md U3). -/
  | reservedClassCode
  deriving DecidableEq, Repr

/-- The record a bundle carries: `exponent` is read as a two's-complement integer (R14). -/
def reprOf (w : Bundle) : Except DecodeError FloatRepr :=
  match classOfCode (w.extractLsb' 129 3) with
  | none => .error .reservedClassCode
  | some c => .ok { rawBits := w.extractLsb' 0 64, sign := w.getLsbD 128, exponent := (w.extractLsb' 117 11).toInt,
                    significand := (w.extractLsb' 64 53).toNat, cls := c }

/-! ### The class rows of the opcode table (R42) -/

/-- A class row: a word x matches when `x AND mask = pattern`. -/
structure ClassRow where
  cls     : FloatClass
  mask    : Word
  pattern : Word
  deriving DecidableEq, Repr

/-- The five class rows of spec/opcode_table.json in their decode_priority order: Zero, Subnormal, Infinity, NaN,
Normal. Normal has an empty mask and is the default. -/
def classRows : List ClassRow :=
  [ ⟨.zero, 0x7FFFFFFFFFFFFFFF#64, 0x0000000000000000#64⟩,
    ⟨.subnormal, 0x7FF0000000000000#64, 0x0000000000000000#64⟩,
    ⟨.infinity, 0x7FFFFFFFFFFFFFFF#64, 0x7FF0000000000000#64⟩,
    ⟨.nan, 0x7FF0000000000000#64, 0x7FF0000000000000#64⟩,
    ⟨.normal, 0x0000000000000000#64, 0x0000000000000000#64⟩ ]

/-- The class of the first row that matches. -/
def classOfWord (x : Word) : FloatClass :=
  match classRows.find? (fun row => decide (x &&& row.mask = row.pattern)) with
  | some row => row.cls
  | none => .normal

/-- The class-row instruction of a word at one decomposer. -/
def classInstrOf (d : DecomposerId) (x : Word) : Instr :=
  match classOfWord x with
  | .zero => .classZero ⟨d, signField x⟩
  | .subnormal => .classSubnormal ⟨d, signField x⟩ (fracField x)
  | .normal => .classNormal ⟨d, signField x⟩ (expField x) (fracField x)
  | .infinity => .classInfinity ⟨d, signField x⟩
  | .nan => .classNaN ⟨d, signField x⟩ (fracField x)

/-! ### Decoder and encoder -/

/-- The instruction a drive stands for. Every word is legal (R50); a bundle is rejected exactly for a reserved
class code (R51). -/
def decode : Drive → Except DecodeError Instr
  | .decomposer d x => .ok (.decompose ⟨d, x⟩)
  | .recomposer w =>
    match reprOf w with
    | .ok r => .ok (.compose r)
    | .error e => .error e
  | .multiplier wa wb =>
    match reprOf wa with
    | .error e => .error e
    | .ok a =>
      match reprOf wb with
      | .error e => .error e
      | .ok b => .ok (.multiply a b)
  | .top x y => .ok (.fmul64 x y)
  | .classifier d x => .ok (classInstrOf d x)

/-- The drive of an instruction, from the formats of R40 and R45. -/
def encode : Instr → Drive
  | .decompose x => .decomposer x.unit x.word
  | .compose r => .recomposer (bundleOf r)
  | .multiply a b => .multiplier (bundleOf a) (bundleOf b)
  | .fmul64 x y => .top x y
  | .classZero s => .classifier s.unit (wordOf s.sign 0#11 0#52)
  | .classSubnormal s f => .classifier s.unit (wordOf s.sign 0#11 f)
  | .classNormal s e f => .classifier s.unit (wordOf s.sign e f)
  | .classInfinity s => .classifier s.unit (wordOf s.sign 2047#11 0#52)
  | .classNaN s f => .classifier s.unit (wordOf s.sign 2047#11 f)

/-! ### The opcode table's numbering -/

/-- The drive of a table row of `nbits` bits holding `w`: a row's pattern string read as one number, its last
position bit 0, so a first operand holds the high bits (log 5). The table gives 64 bits to DECOMPOSE, 128 to
FMUL64, 132 (136 in whole bytes) to COMPOSE and 264 to MULTIPLY; below 64 bits it lists only the class rows. A word
goes to the first decomposer (log 5, log 13). -/
def driveOfTable (nbits w : Nat) : Drive :=
  if nbits < 64 then .classifier .a (BitVec.ofNat 64 w)
  else if nbits = 64 then .decomposer .a (BitVec.ofNat 64 w)
  else if nbits ≤ 128 then .top (BitVec.ofNat 64 (w / 2 ^ 64)) (BitVec.ofNat 64 w)
  else if nbits ≤ 136 then .recomposer (BitVec.ofNat 132 w)
  else .multiplier (BitVec.ofNat 132 (w / 2 ^ 132)) (BitVec.ofNat 132 w)

/-- The instruction the decoder reads from a table row's bits. -/
def decodeTableWord (nbits w : Nat) : Option Instr :=
  match decode (driveOfTable nbits w) with
  | .ok i => some i
  | .error _ => none

end Sys2Proof
end

