-- ==== Sys2Proof/Machine/State.lean ====
section
/-! DEFINITION. The machine's state: the ports of 10_state.md R15 and what the host has presented. The block itself
holds no state (R10); a port group is `none` while the host has not driven it (R161; log 8). -/

namespace Sys2Proof.Machine

/-- Why a step stops with a fault: never. "No operation raises an exception, traps, faults, hangs or fails"
(60_exceptions.md R140; log 15), so nothing raises one and there is no constructor. -/
inductive Fault where
  deriving DecidableEq, Repr

/-- Why an evaluation has no result. The spec assigns none to an ill-formed operand and has a model refuse it by
name (60_exceptions.md R144; D9). All are safe: the model stops where the block's behaviour is not specified. -/
inductive Refusal where
  /-- Raised by an arm of exec whose instruction has no meaning yet. Safe. -/
  | notModelled (mnemonic : String)
  /-- Raised by step on a driven bundle whose class code is 5, 6 or 7 (R51, U3). Safe. -/
  | reservedClassCode
  /-- Raised by COMPOSE on a record outside the domain of R77 (U1). Safe. -/
  | composeOutsideDomain
  /-- Raised by MULTIPLY on an operand that is neither WFX nor of class NaN (R90, U2). Safe. -/
  | multiplyOutsideDomain
  /-- Raised by MULTIPLY on a Subnormal record with significand 0 that would reach the numeric path, where the
  loop of R101 would not end (R144, U2; log 7). Safe. -/
  | unpackNeverEnds
  /-- Raised by a class row whose fields form a word outside the row's class (R42; log 3). No drive decodes to
  such a term. Safe. -/
  | operandNotInClass
  deriving DecidableEq, Repr

/-- The ports of one stand-alone decomposer (R15). -/
structure DecomposerPorts where
  value : Word
  repr  : FloatRepr
  deriving DecidableEq, Repr

/-- The ports of the stand-alone recomposer (R15). -/
structure RecomposerPorts where
  repr  : FloatRepr
  value : Word
  deriving DecidableEq, Repr

/-- The ports of the stand-alone multiplier (R15). -/
structure MultiplierPorts where
  a : FloatRepr
  b : FloatRepr
  p : FloatRepr
  deriving DecidableEq, Repr

/-- The ports of the top-level block B64MUL (R15): `a_bits`, `b_bits`, `p_bits`, `a_repr`, `b_repr`, `p_repr`. -/
structure TopPorts where
  aBits : Word
  bBits : Word
  pBits : Word
  aRepr : FloatRepr
  bRepr : FloatRepr
  pRepr : FloatRepr
  deriving DecidableEq, Repr

/-- The state. The five port groups are the spec's, one for each of the two decomposers (R15, D2); `pending` is the
model's own field: the operands the host has presented and the block has not evaluated yet, next first (log 1). -/
structure State where
  decomposerA : Option DecomposerPorts
  decomposerB : Option DecomposerPorts
  recomposer  : Option RecomposerPorts
  multiplier  : Option MultiplierPorts
  top         : Option TopPorts
  pending     : List Drive
  deriving DecidableEq, Repr

/-- The block needs and has no reset (R20, R160): no port is driven and nothing is presented (log 9). -/
def State.reset : State :=
  { decomposerA := none, decomposerB := none, recomposer := none, multiplier := none, top := none, pending := [] }

/-- The ports of one decomposer (R15). -/
def State.decomposer (s : State) : DecomposerId → Option DecomposerPorts
  | .a => s.decomposerA
  | .b => s.decomposerB

/-- The state with the ports of one decomposer replaced and nothing else. -/
def State.withDecomposer (s : State) (d : DecomposerId) (ports : Option DecomposerPorts) : State :=
  match d with
  | .a => { s with decomposerA := ports }
  | .b => { s with decomposerB := ports }

end Sys2Proof.Machine
end

