-- ==== Sys2Proof/Machine/Ops.lean ====
section
/-! DEFINITION. The shared operations: packing a word (41_compose.md R70), building a record whose rawBits is packed
from its other fields (42_multiply_special.md R82), and presenting a result at a sub-block's ports (10_state.md
R15). There is no memory operation (20_memory.md R30) and no exception entry or return (60_exceptions.md R143). -/

namespace Sys2Proof.Machine

/-- `PACK(s, field, frac) = (s * 2^63 + field * 2^52 + frac) mod 2^64` (R70): the fraction is added, so a fraction
of 2^52 carries into the exponent field (D8; log 12). -/
def pack (s : Bool) (field frac : Nat) : Word :=
  BitVec.ofNat 64 (s.toNat * 2 ^ 63 + field * 2 ^ 52 + frac)

/-- The exponent field of a record of class `c` with exponent `e` (R17, R71, R82). -/
def packField (c : FloatClass) (e : Int) : Nat :=
  match c with
  | .zero => 0
  | .subnormal => 0
  | .infinity => Config.expfSpecial
  | .nan => Config.expfSpecial
  | .normal => (e + Config.bias).toNat

/-- The fraction `mkrepr` packs (R82). -/
def packFraction (c : FloatClass) (m : Nat) : Nat :=
  match c with
  | .zero => 0
  | .subnormal => m
  | .infinity => 0
  | .nan => m
  | .normal => m

/-- `mkrepr(cls, s, e, m)` (R82). -/
def mkRepr (c : FloatClass) (s : Bool) (e : Int) (m : Nat) : FloatRepr :=
  { rawBits := pack s (packField c e) (packFraction c m), sign := s, exponent := e, significand := m, cls := c }

/-! ### Presenting operands and results at the ports (R15). Each changes one sub-block's ports and nothing else. -/

/-- One decomposer's input and the output that follows it. -/
def State.setDecomposer (s : State) (d : DecomposerId) (value : Word) (repr : FloatRepr) : State :=
  s.withDecomposer d (some { value := value, repr := repr })

/-- The recomposer's input and the output that follows it. -/
def State.setRecomposer (s : State) (repr : FloatRepr) (value : Word) : State :=
  { s with recomposer := some { repr := repr, value := value } }

/-- The multiplier's inputs and the output that follows them. -/
def State.setMultiplier (s : State) (a b p : FloatRepr) : State :=
  { s with multiplier := some { a := a, b := b, p := p } }

/-- The top level's inputs and the outputs that follow them. -/
def State.setTop (s : State) (ports : TopPorts) : State :=
  { s with top := some ports }

end Sys2Proof.Machine
end

