-- ==== Sys2Proof/Machine/Decomposer.lean ====
section
/-! DEFINITION. The decomposers: DECOMPOSE (40_decompose.md R60) and the five class rows of its classification table
(R61, 30_encoding.md R42; log 3). -/

namespace Sys2Proof.Machine

/-- `(class, exponent)` from E and F: the classification of R60. -/
def classify (field : BitVec 11) (frac : BitVec 52) : FloatClass × Int :=
  if field = 0#11 ∧ frac = 0#52 then (.zero, 0)
  else if field = 0#11 then (.subnormal, Config.eMin)
  else if field = 2047#11 ∧ frac = 0#52 then (.infinity, 0)
  else if field = 2047#11 then (.nan, 0)
  else (.normal, field.toNat - Config.bias)

/-- The record of `DECOMPOSE x` (R60, R62). -/
def decomposeWord (x : Word) : FloatRepr :=
  { rawBits := x, sign := signField x, exponent := (classify (expField x) (fracField x)).2,
    significand := (fracField x).toNat, cls := (classify (expField x) (fracField x)).1 }

/-- `r = DECOMPOSE x`: total, no failure mode (R60, R63). -/
def execDecompose (x : WordAt) (s : State) : Host.Outcome State Fault Refusal :=
  .next (s.setDecomposer x.unit x.word (decomposeWord x.word))

/-- The record a row of the classification table (R61) gives for a word of that row: `significand` is the fraction
field, `rawBits` the word. -/
def tableRecord (c : FloatClass) (e : Int) (sign : Bool) (field : BitVec 11) (frac : BitVec 52) : FloatRepr :=
  { rawBits := wordOf sign field frac, sign := sign, exponent := e, significand := frac.toNat, cls := c }

/-- R61 row E = 0, F = 0: class Zero, stored exponent 0. -/
def execClassZero (sign : SignAt) (s : State) : Host.Outcome State Fault Refusal :=
  .next (s.setDecomposer sign.unit (wordOf sign.sign 0#11 0#52) (tableRecord .zero 0 sign.sign 0#11 0#52))

/-- R61 row E = 0, F /= 0: class Subnormal, stored exponent -1022. -/
def execClassSubnormal (sign : SignAt) (frac : BitVec 52) (s : State) : Host.Outcome State Fault Refusal :=
  if frac = 0#52 then .refused .operandNotInClass
  else .next (s.setDecomposer sign.unit (wordOf sign.sign 0#11 frac)
    (tableRecord .subnormal Config.eMin sign.sign 0#11 frac))

/-- R61 row E = 1..2046: class Normal, stored exponent E - 1023. -/
def execClassNormal (sign : SignAt) (field : BitVec 11) (frac : BitVec 52) (s : State) :
    Host.Outcome State Fault Refusal :=
  if field = 0#11 ∨ field = 2047#11 then .refused .operandNotInClass
  else .next (s.setDecomposer sign.unit (wordOf sign.sign field frac)
    (tableRecord .normal (field.toNat - Config.bias) sign.sign field frac))

/-- R61 row E = 2047, F = 0: class Infinity, stored exponent 0. -/
def execClassInfinity (sign : SignAt) (s : State) : Host.Outcome State Fault Refusal :=
  .next (s.setDecomposer sign.unit (wordOf sign.sign 2047#11 0#52)
    (tableRecord .infinity 0 sign.sign 2047#11 0#52))

/-- R61 row E = 2047, F /= 0: class NaN, stored exponent 0. -/
def execClassNaN (sign : SignAt) (frac : BitVec 52) (s : State) : Host.Outcome State Fault Refusal :=
  if frac = 0#52 then .refused .operandNotInClass
  else .next (s.setDecomposer sign.unit (wordOf sign.sign 2047#11 frac)
    (tableRecord .nan 0 sign.sign 2047#11 frac))

end Sys2Proof.Machine
end

