-- ==== Sys2Proof/Machine/Flags.lean ====
section
/-! DEFINITION. The condition bits of the block. It has NO flags, condition codes or status register (10_state.md
R12, 60_exceptions.md R141): the only condition bits it forms are the guard and sticky bits of the rounding
primitive (43_multiply_numeric.md R104), used at both rounding sites (R106, R112) and kept nowhere. -/

namespace Sys2Proof.Machine

/-- The five values of `RNE_SHIFT(v, n)` (R104): q, guard, sticky, up, r. -/
structure RneShift where
  retained : Nat
  guard    : Bool
  sticky   : Bool
  up       : Bool
  rounded  : Nat
  deriving DecidableEq, Repr

/-- `guard = v[n-1]`, the most significant discarded bit. -/
def guardBit (v n : Nat) : Bool := v.testBit (n - 1)

/-- `sticky`: whether any bit of `v[n-2:0]` is set; there is none when n = 1. -/
def stickyBit (v n : Nat) : Bool := decide (v % 2 ^ (n - 1) ≠ 0)

/-- `up = guard AND (sticky OR q[0])`. -/
def roundUp (v n : Nat) : Bool := guardBit v n && (stickyBit v n || (v >>> n).testBit 0)

/-- `RNE_SHIFT(v, n)`, n >= 1: right shift with round to nearest, ties to even (R104). -/
def rneShift (v n : Nat) : RneShift :=
  { retained := v >>> n, guard := guardBit v n, sticky := stickyBit v n, up := roundUp v n,
    rounded := (v >>> n) + (roundUp v n).toNat }

end Sys2Proof.Machine
end

