-- ==== Sys2Proof/Machine/Operands.lean ====
section
/-! DEFINITION. The operand forms: well-formed records (10_state.md R17, R18), the domains of COMPOSE (41_compose.md
R77) and MULTIPLY (42_multiply_special.md R90), and operand unpacking (43_multiply_numeric.md R100, R101). -/

namespace Sys2Proof.Machine

/-- The field ranges of `WF(r)`, class by class (R17). -/
def fieldRanges (r : FloatRepr) : Bool :=
  match r.cls with
  | .normal => decide (Config.eMin ≤ r.exponent) && decide (r.exponent ≤ Config.eMax) && decide (r.significand < 2 ^ 52)
  | .subnormal => decide (r.exponent = Config.eMin) && decide (1 ≤ r.significand) && decide (r.significand < 2 ^ 52)
  | .zero => decide (r.exponent = 0) && decide (r.significand = 0)
  | .infinity => decide (r.exponent = 0) && decide (r.significand = 0)
  | .nan => decide (r.exponent = 0) && decide (1 ≤ r.significand) && decide (r.significand < 2 ^ 52)

/-- `WF(r)` (R17): the field ranges and a consistent `rawBits`. -/
def wf (r : FloatRepr) : Bool :=
  fieldRanges r && decide (r.rawBits = pack r.sign (packField r.cls r.exponent) r.significand)

/-- The one extended record of R18: Subnormal with significand 2^52, its word that of the smallest normal. -/
def extendedSubnormal (r : FloatRepr) : Bool :=
  decide (r.cls = .subnormal) && decide (r.exponent = Config.eMin) && decide (r.significand = 2 ^ 52) &&
    decide (r.rawBits = pack r.sign 0 (2 ^ 52))

/-- `WFX(r)` (R18). -/
def wfx (r : FloatRepr) : Bool := wf r || extendedSubnormal r

/-- The domain of COMPOSE (R77). -/
def composeDomain (r : FloatRepr) : Bool :=
  match r.cls with
  | .normal => decide (Config.eMin ≤ r.exponent) && decide (r.exponent ≤ Config.eMax) && decide (r.significand < 2 ^ 52)
  | .subnormal => decide (r.significand ≤ 2 ^ 52)
  | .nan => decide (r.significand < 2 ^ 52)
  | .zero => true
  | .infinity => true

/-- What MULTIPLY accepts on each of its operands (R90): `WFX`, or class NaN whatever the other fields hold. -/
def multiplyOperand (r : FloatRepr) : Bool := wfx r || decide (r.cls = .nan)

/-- Class Normal or Subnormal: the classes of the numeric path (R87). -/
def finiteNonzero (r : FloatRepr) : Bool := decide (r.cls = .normal) || decide (r.cls = .subnormal)

/-- The Subnormal record with significand 0, on which the loop of R101 would not end (R144). -/
def zeroSubnormal (r : FloatRepr) : Bool := decide (r.cls = .subnormal) && decide (r.significand = 0)

/-- The loop of R101, one shift at a time, with the number of shifts it may still make: it stops when bit 52 is
set. -/
def renormalise : Nat → Int → Nat → Int × Nat
  | 0, er, mr => (er, mr)
  | n + 1, er, mr => if mr.testBit 52 then (er, mr) else renormalise n (er - 1) (2 * mr)

/-- `UNPACK(r)` = (exponent, 53-bit significand). Normal: the hidden bit is set above the stored bits (R100).
Subnormal: renormalised from exponent -1022, in at most 52 shifts (R101). It is entered with these two classes
only (R87). -/
def unpack (r : FloatRepr) : Int × Nat :=
  if r.cls = .subnormal then renormalise 52 Config.eMin r.significand
  else (r.exponent, 2 ^ 52 + r.significand)

end Sys2Proof.Machine
end

