-- ==== Sys2Proof/Machine/Numeric.lean ====
section
/-! DEFINITION. The numeric path of MULTIPLY (43_multiply_numeric.md R100 to R115), one definition per rule. -/

namespace Sys2Proof.Machine

/-- `P = ma * mb`, the exact product (R102). -/
def significandProduct (ma mb : Nat) : Nat := ma * mb

/-- `e0 = ea + eb` (R103). -/
def exponentSum (ea eb : Int) : Int := ea + eb

/-- `sh` (R105): 53 when bit 105 of the product is set, else 52. -/
def normShift (p : Nat) : Nat := if p.testBit 105 then 53 else 52

/-- `e1` (R105). -/
def normExponent (p : Nat) (e0 : Int) : Int := if p.testBit 105 then e0 + 1 else e0

/-- A 53-bit significand with its working exponent. -/
structure Scaled where
  sig : Nat
  exp : Int
  deriving DecidableEq, Repr

/-- The rounding-overflow step (R108): 2^53 is halved and the exponent incremented, once. -/
def roundOverflow (s1 : Nat) (e1 : Int) : Scaled :=
  if s1 = 2 ^ 53 then { sig := 2 ^ 52, exp := e1 + 1 } else { sig := s1, exp := e1 }

/-- Normalisation, first rounding and its overflow step (R105, R106, R108): the final `S` and `e`. -/
def roundProduct (p : Nat) (e0 : Int) : Scaled :=
  roundOverflow (rneShift p (normShift p)).rounded (normExponent p e0)

/-- `E' = e + 1023` (R109). -/
def candidateField (e : Int) : Int := e + Config.bias

/-- `k = 1 - E'` (R111), a shift amount when `E' <= 0`. -/
def underflowShift (e : Int) : Nat := (1 - candidateField e).toNat

/-- The underflow result for shift amount `k` (R111, R112, R113): Zero outright from the limit on, else the second
rounding, applied to the already rounded significand. -/
def underflowResult (s : Bool) (sig k : Nat) : FloatRepr :=
  if Config.zeroShiftLimit ≤ k then mkRepr .zero s 0 0
  else if (rneShift sig k).rounded = 0 then mkRepr .zero s 0 0
  else mkRepr .subnormal s Config.eMin (rneShift sig k).rounded

/-- Exponent-range resolution (R109): overflow (R110), underflow (R111 to R113), Normal (R114). -/
def resolveRange (s : Bool) (r : Scaled) : FloatRepr :=
  if 2047 ≤ candidateField r.exp then mkRepr .infinity s 0 0
  else if candidateField r.exp ≤ 0 then underflowResult s r.sig (underflowShift r.exp)
  else mkRepr .normal s r.exp (r.sig % 2 ^ 52)

/-- `S` and `e` of two operands (R100 to R108). -/
def roundedProductOf (a b : FloatRepr) : Scaled :=
  roundProduct (significandProduct (unpack a).2 (unpack b).2) (exponentSum (unpack a).1 (unpack b).1)

/-- `NUMERIC(a, b, s)`. -/
def numericPath (a b : FloatRepr) (s : Bool) : FloatRepr := resolveRange s (roundedProductOf a b)

end Sys2Proof.Machine
end

