-- ==== Sys2Proof/Machine/Multiplier.lean ====
section
/-! DEFINITION. The multiplier: MULTIPLY, its special-value branches and the dispatch to the numeric path
(42_multiply_special.md R80 to R92). -/

namespace Sys2Proof.Machine

/-- `s = a.sign XOR b.sign` (R81). -/
def resultSign (a b : FloatRepr) : Bool := a.sign ^^ b.sign

/-- One operand is Infinity and the other Zero, in either order (R84). -/
def infinityTimesZero (a b : FloatRepr) : Bool :=
  (decide (a.cls = .infinity) && decide (b.cls = .zero)) || (decide (a.cls = .zero) && decide (b.cls = .infinity))

/-- The five branches of R80, in priority order. It has a standing on the domain of R90 only; `multiply` asks for
it. -/
def multiplyRecord (a b : FloatRepr) : FloatRepr :=
  if a.cls = .nan then a
  else if b.cls = .nan then b
  else if infinityTimesZero a b then mkRepr .nan (resultSign a b) 0 Config.invalidNanFraction
  else if a.cls = .infinity ∨ b.cls = .infinity then mkRepr .infinity (resultSign a b) 0 0
  else if a.cls = .zero ∨ b.cls = .zero then mkRepr .zero (resultSign a b) 0 0
  else numericPath a b (resultSign a b)

/-- Both operands have classes of the numeric path and one is the Subnormal record with significand 0: the loop of
R101 would not end (R144, U2; log 7). -/
def unpackDiverges (a b : FloatRepr) : Bool :=
  finiteNonzero a && finiteNonzero b && (zeroSubnormal a || zeroSubnormal b)

/-- MULTIPLY on its domain; refused outside it, also when a NaN in `a` would have kept `b` from being looked at
(R90, U2). -/
def multiply (a b : FloatRepr) : Except Refusal FloatRepr :=
  if multiplyOperand a && multiplyOperand b then .ok (multiplyRecord a b)
  else if unpackDiverges a b then .error .unpackNeverEnds
  else .error .multiplyOutsideDomain

/-- `p = MULTIPLY a, b`. -/
def execMultiply (a b : FloatRepr) (s : State) : Host.Outcome State Fault Refusal :=
  match multiply a b with
  | .ok p => .next (s.setMultiplier a b p)
  | .error e => .refused e

end Sys2Proof.Machine
end

