-- ==== Sys2Proof/Machine/Recomposer.lean ====
section
/-! DEFINITION. The recomposer: COMPOSE (41_compose.md R71 to R77). -/

namespace Sys2Proof.Machine

/-- The fraction COMPOSE packs: 0 for Zero and Infinity, and 1 for a NaN whose significand is 0 (R71, R72). -/
def composeFraction (r : FloatRepr) : Nat :=
  match r.cls with
  | .zero => 0
  | .subnormal => r.significand
  | .infinity => 0
  | .nan => if r.significand = 0 then 1 else r.significand
  | .normal => r.significand

/-- The word of R71. It has a standing on the domain of R77 only; `compose` asks for it. -/
def composeWord (r : FloatRepr) : Word := pack r.sign (packField r.cls r.exponent) (composeFraction r)

/-- COMPOSE on its domain; refused outside it (R77, U1). -/
def compose (r : FloatRepr) : Except Refusal Word :=
  if composeDomain r then .ok (composeWord r) else .error .composeOutsideDomain

/-- `w = COMPOSE r`. -/
def execCompose (r : FloatRepr) (s : State) : Host.Outcome State Fault Refusal :=
  match compose r with
  | .ok w => .next (s.setRecomposer r w)
  | .error e => .refused e

end Sys2Proof.Machine
end

