-- ==== Sys2Proof/Machine/Fmul64.lean ====
section
/-! DEFINITION. The top level: FMUL64, the fixed composition of DECOMPOSE, MULTIPLY and COMPOSE (44_fmul64.md
R130). -/

namespace Sys2Proof.Machine

/-- The port values of one FMUL64 evaluation, through the checked operations (R130, R39). -/
def fmul64Ports (x y : Word) : Except Refusal TopPorts :=
  match multiply (decomposeWord x) (decomposeWord y) with
  | .error e => .error e
  | .ok p =>
    match compose p with
    | .error e => .error e
    | .ok w => .ok { aBits := x, bBits := y, pBits := w, aRepr := decomposeWord x, bRepr := decomposeWord y, pRepr := p }

/-- `w = FMUL64 x, y`. -/
def execFmul64 (x y : Word) (s : State) : Host.Outcome State Fault Refusal :=
  match fmul64Ports x y with
  | .ok ports => .next (s.setTop ports)
  | .error e => .refused e

end Sys2Proof.Machine
end

