-- ==== Sys2Proof/Machine/Dispatch.lean ====
section
/-! DEFINITION. One arm per constructor of Instr. -/

namespace Sys2Proof.Machine

def exec (i : Instr) (s : State) : Host.Outcome State Fault Refusal :=
  match i with
  | .decompose x => Sys2Proof.Machine.execDecompose x s
  | .compose r => Sys2Proof.Machine.execCompose r s
  | .multiply a b => Sys2Proof.Machine.execMultiply a b s
  | .fmul64 x y => Sys2Proof.Machine.execFmul64 x y s
  | .classZero sign => Sys2Proof.Machine.execClassZero sign s
  | .classSubnormal sign frac => Sys2Proof.Machine.execClassSubnormal sign frac s
  | .classNormal sign field frac => Sys2Proof.Machine.execClassNormal sign field frac s
  | .classInfinity sign => Sys2Proof.Machine.execClassInfinity sign s
  | .classNaN sign frac => Sys2Proof.Machine.execClassNaN sign frac s

end Sys2Proof.Machine
end

