-- ==== Sys2Proof/Machine/Step.lean ====
section
/-! DEFINITION. One step: one evaluation of the next operands the host has presented. -/

namespace Sys2Proof.Machine

/-- The next presented operands are decoded and evaluated; with none presented nothing changes, for the outputs go
on following the inputs (70_reset_and_hazards.md R161; log 10). A bundle with a reserved class code is refused
(R51, U3). -/
def step (s : State) : Host.Outcome State Fault Refusal :=
  match s.pending with
  | [] => .next s
  | d :: rest =>
    match decode d with
    | .error .reservedClassCode => .refused .reservedClassCode
    | .ok i => exec i { s with pending := rest }

/-- The host presents the operands of a table row as the next to be evaluated (log 5, log 9). -/
def State.withFetchWord (s : State) (nbits w : Nat) : State :=
  { s with pending := driveOfTable nbits w :: s.pending }

end Sys2Proof.Machine
end

