-- ==== Sys2Proof/Safety.lean ====
section
/-! DEFINITION. The terms claims are stated in: the fields of a word as numbers (R41), the operand classes (R42), the
domain of COMPOSE in the words of R77, the rational a record denotes (R43), nearest-even rounding said without the
rounding primitive, and the two invariants of the ports. -/

namespace Sys2Proof.Machine

/-! ### A word as numbers -/

/-- Bit 63 of a word (R41). -/
def wordSign (x : Word) : Nat := x.toNat / 2 ^ 63

/-- The exponent field of a word, 0..2047 (R41). -/
def wordExp (x : Word) : Nat := x.toNat / 2 ^ 52 % 2048

/-- The fraction field of a word, 0..2^52 - 1 (R41). -/
def wordFrac (x : Word) : Nat := x.toNat % 2 ^ 52

/-- The five operand classes by exponent field and fraction (R42). -/
def isZeroWord (x : Word) : Prop := wordExp x = 0 ∧ wordFrac x = 0
def isSubnormalWord (x : Word) : Prop := wordExp x = 0 ∧ wordFrac x ≠ 0
def isNormalWord (x : Word) : Prop := 1 ≤ wordExp x ∧ wordExp x ≤ 2046
def isInfinityWord (x : Word) : Prop := wordExp x = 2047 ∧ wordFrac x = 0
def isNaNWord (x : Word) : Prop := wordExp x = 2047 ∧ wordFrac x ≠ 0

/-! ### Records -/

/-- The domain of COMPOSE in the words of R77. -/
def inComposeDomain (r : FloatRepr) : Prop :=
  (r.cls = .normal → -1022 ≤ r.exponent ∧ r.exponent ≤ 1023 ∧ r.significand ≤ 2 ^ 52 - 1) ∧
  (r.cls = .subnormal → r.significand ≤ 2 ^ 52) ∧
  (r.cls = .nan → r.significand ≤ 2 ^ 52 - 1)

/-- The magnitude of a finite record in units of 2^(exponent - 52) (R43): hidden bit for Normal, none for
Subnormal. -/
def magnitude (r : FloatRepr) : Nat :=
  match r.cls with
  | .normal => 2 ^ 52 + r.significand
  | .subnormal => r.significand
  | .zero => 0
  | .infinity => 0
  | .nan => 0

/-- The rational a finite record denotes (R43, from general knowledge, as the spec marks it; log 14). It says
nothing of Infinity and NaN. -/
def realValue (r : FloatRepr) : ℚ :=
  (if r.sign then -1 else 1) * (magnitude r : ℚ) * 2 ^ (r.exponent - 52)

/-- Zero, Subnormal or Normal. -/
def isFinite (r : FloatRepr) : Prop := r.cls = .zero ∨ r.cls = .subnormal ∨ r.cls = .normal

/-- `q` is `v / 2^n` rounded to nearest, ties to even: at most half a unit away, and even at exactly half. -/
def NearestEven (v n q : Nat) : Prop :=
  2 * (q * 2 ^ n) ≤ 2 * v + 2 ^ n ∧ 2 * v ≤ 2 * (q * 2 ^ n) + 2 ^ n ∧ (2 * (v % 2 ^ n) = 2 ^ n → q % 2 = 0)

/-- The exact significand product of two operands (R102). -/
def productOf (a b : FloatRepr) : Nat := (unpack a).2 * (unpack b).2

/-- The exact exponent sum of two operands (R103). -/
def exponentOf (a b : FloatRepr) : Int := (unpack a).1 + (unpack b).1

/-! ### The invariants of the ports -/

/-- Every output follows the inputs beside it (R161, R164): each driven sub-block shows the result of its operation
on the operands it shows. -/
def portsFollow (s : State) : Prop :=
  (∀ d p, s.decomposer d = some p → p.repr = decomposeWord p.value) ∧
  (∀ p, s.recomposer = some p → compose p.repr = .ok p.value) ∧
  (∀ p, s.multiplier = some p → multiply p.a p.b = .ok p.p) ∧
  (∀ p, s.top = some p → fmul64Ports p.aBits p.bBits = .ok p)

/-- The records and words at the ports are mutually consistent (R16, R32, R115, R131): decomposed records are well
formed and carry their word; products of `WFX` operands are `WFX`, carry their own word and, without a NaN, the XOR
sign; the top level's word is its product record's word. -/
def recordsConsistent (s : State) : Prop :=
  (∀ d p, s.decomposer d = some p → wf p.repr = true ∧ p.repr.rawBits = p.value) ∧
  (∀ p, s.recomposer = some p → inComposeDomain p.repr ∧ (wfx p.repr = true → p.value = p.repr.rawBits)) ∧
  (∀ p, s.multiplier = some p →
    (wfx p.a = true → wfx p.b = true → wfx p.p = true ∧ compose p.p = .ok p.p.rawBits) ∧
    (p.a.cls ≠ .nan → p.b.cls ≠ .nan → p.p.sign = (p.a.sign ^^ p.b.sign))) ∧
  (∀ p, s.top = some p →
    wf p.aRepr = true ∧ p.aRepr.rawBits = p.aBits ∧ wf p.bRepr = true ∧ p.bRepr.rawBits = p.bBits ∧
    wfx p.pRepr = true ∧ p.pRepr.rawBits = p.pBits)

end Sys2Proof.Machine
end

