-- ==== Sys2Proof/Certificates/Slice0/Obligations.lean ====
section
/-! DEFINITION. The statements for the provers. Each docstring names the rule of spec/ it formalises. `wordSign`,
`wordExp`, `wordFrac`, the word classes, `inComposeDomain`, `realValue` and `NearestEven` are those of Safety.lean:
numbers read off a word's bits and plain arithmetic, not the model's own operations. -/

open Sys2Proof Sys2Proof.Machine

/-! ### Encoding and stepping -/

/-- Every well-formed instruction is what its encoding decodes to: no bit of a word (R40) or of a bundle (R14, R45)
is dropped. That a class row is written by its free fields is the model's choice (log 3). -/
def Obligations.DecodeUndoesEncode : Prop :=
  ∀ i : Instr, i.wellFormed = true → decode (encode i) = .ok i

/-- What a drive decodes to is well formed, belongs to the driven sub-block, and encodes to that drive: every bit
pattern has one meaning (R40, R45, R52). -/
def Obligations.EncodeUndoesDecode : Prop :=
  ∀ (d : Drive) (i : Instr), decode d = .ok i → i.wellFormed = true ∧ i.subBlock = d.subBlock ∧ encode i = d

/-- A drive is rejected exactly when a driven bundle holds class code 5, 6 or 7 in its top three positions (R14, R51;
the order of the positions is log 4); a word never is (R50). -/
def Obligations.OnlyReservedClassCodesAreRejected : Prop :=
  ∀ d : Drive, decode d = .error .reservedClassCode ↔
    (∃ w : Bundle, d = .recomposer w ∧ 5 ≤ w.toNat / 2 ^ 129) ∨
    (∃ wa wb : Bundle, d = .multiplier wa wb ∧ (5 ≤ wa.toNat / 2 ^ 129 ∨ 5 ≤ wb.toNat / 2 ^ 129))

/-- A few encodings written out by hand from R40, R45 and the opcode table (sanity): two words, a Normal bundle, the
extended Subnormal bundle, a pair of bundles, and class rows. -/
def Obligations.SampleWordsDecode : Prop :=
  decode (.decomposer .a 0xC004000000000000#64) = .ok (.decompose ⟨.a, 0xC004000000000000#64⟩) ∧
  decode (.recomposer 0x480000000000004018000000000000#132) = .ok (.compose
    { rawBits := 0x4018000000000000#64, sign := false, exponent := 2, significand := 0x8000000000000, cls := .normal }) ∧
  decode (.recomposer 0x380500000000000008010000000000000#132) = .ok (.compose
    { rawBits := 0x8010000000000000#64, sign := true, exponent := -1022, significand := 2 ^ 52, cls := .subnormal }) ∧
  decode (.multiplier 0x800000000000000017FF0000000000001#132 0x500000000000000008000000000000000#132) =
    .ok (.multiply
      { rawBits := 0x7FF0000000000001#64, sign := false, exponent := 0, significand := 1, cls := .nan }
      { rawBits := 0x8000000000000000#64, sign := true, exponent := 0, significand := 0, cls := .zero }) ∧
  decode (.top 0x4000000000000000#64 0x4008000000000000#64) =
    .ok (.fmul64 0x4000000000000000#64 0x4008000000000000#64) ∧
  decode (.classifier .a 0xFFF0000000000000#64) = .ok (.classInfinity ⟨.a, true⟩) ∧
  decode (.classifier .b 0x3FF8000000000000#64) = .ok (.classNormal ⟨.b, false⟩ 1023#11 0x8000000000000#52)

/-- The next presented operands are decoded and evaluated, the rest staying presented; operands of a table row
presented through `withFetchWord` are the next. The list of presented operands is the model's own (log 1, log 5). -/
def Obligations.StepRunsTheDecodedInstruction : Prop :=
  (∀ (s : State) (d : Drive) (rest : List Drive) (i : Instr), s.pending = d :: rest → decode d = .ok i →
    step s = exec i { s with pending := rest }) ∧
  (∀ (s : State) (nbits w : Nat) (i : Instr), decodeTableWord nbits w = some i →
    step (s.withFetchWord nbits w) = exec i s)

/-- With nothing presented a step changes nothing, the outputs following the inputs (R161; the model's choice, log
10); a driven bundle with a reserved class code is refused (R51, U3). -/
def Obligations.StepIdlesOrRefuses : Prop :=
  (∀ s : State, s.pending = [] → step s = .next s) ∧
  (∀ (s : State) (d : Drive) (rest : List Drive), s.pending = d :: rest → decode d = .error .reservedClassCode →
    step s = .refused .reservedClassCode)

/-- The block has no state for a reset to set (R20, R160): no port is driven and nothing is presented. The value is
the model's choice (log 8, log 9). -/
def Obligations.ResetDrivesNothing : Prop :=
  State.reset.decomposerA = none ∧ State.reset.decomposerB = none ∧ State.reset.recomposer = none ∧
  State.reset.multiplier = none ∧ State.reset.top = none ∧ State.reset.pending = [] ∧ step State.reset = .next State.reset

/-! ### Operand classes (R42) and DECOMPOSE (R60 to R64) -/

/-- R42: the class rows, taken in their priority order, give every word the one class whose condition on E and F it
meets; each match and mask agrees with that condition. -/
def Obligations.ClassRowsClassifyEveryWord : Prop :=
  ∀ x : Word,
    (classOfWord x = .zero ↔ isZeroWord x) ∧ (classOfWord x = .subnormal ↔ isSubnormalWord x) ∧
    (classOfWord x = .normal ↔ isNormalWord x) ∧ (classOfWord x = .infinity ↔ isInfinityWord x) ∧
    (classOfWord x = .nan ↔ isNaNWord x) ∧
    (isZeroWord x ↔ x &&& 0x7FFFFFFFFFFFFFFF#64 = 0#64) ∧
    (isSubnormalWord x ↔ x &&& 0x7FF0000000000000#64 = 0#64 ∧ wordFrac x ≠ 0) ∧
    (isInfinityWord x ↔ x &&& 0x7FFFFFFFFFFFFFFF#64 = 0x7FF0000000000000#64) ∧
    (isNaNWord x ↔ x &&& 0x7FF0000000000000#64 = 0x7FF0000000000000#64 ∧ wordFrac x ≠ 0) ∧
    (decomposeWord x).cls = classOfWord x

/-- R60: the record of `DECOMPOSE x`, for every word, presented at the driven decomposer's ports, whichever of the two
it is (R15), and nothing else changed. -/
def Obligations.DecomposeGivesTheRecord : Prop :=
  ∀ (d : DecomposerId) (x : Word) (s : State), ∃ r : FloatRepr,
    exec (.decompose ⟨d, x⟩) s = .next (s.withDecomposer d (some { value := x, repr := r })) ∧
    r.rawBits = x ∧ (r.sign = true ↔ wordSign x = 1) ∧ r.significand = wordFrac x ∧
    (wordExp x = 0 → wordFrac x = 0 → r.cls = .zero ∧ r.exponent = 0) ∧
    (wordExp x = 0 → wordFrac x ≠ 0 → r.cls = .subnormal ∧ r.exponent = -1022) ∧
    (wordExp x = 2047 → wordFrac x = 0 → r.cls = .infinity ∧ r.exponent = 0) ∧
    (wordExp x = 2047 → wordFrac x ≠ 0 → r.cls = .nan ∧ r.exponent = 0) ∧
    (1 ≤ wordExp x → wordExp x ≤ 2046 → r.cls = .normal ∧ r.exponent = (wordExp x : Int) - 1023)

/-- R62, R64: the record of a word is well formed, carries the word, and keeps to the ranges of its class. -/
def Obligations.DecomposedRecordsAreWellFormed : Prop :=
  ∀ (d : DecomposerId) (x : Word) (s : State), ∃ r : FloatRepr,
    exec (.decompose ⟨d, x⟩) s = .next (s.withDecomposer d (some { value := x, repr := r })) ∧
    r.rawBits = x ∧ r.rawBits = pack r.sign (wordExp x) (wordFrac x) ∧ wf r = true ∧
    (r.cls = .zero → r.exponent = 0 ∧ r.significand = 0) ∧
    (r.cls = .subnormal → r.exponent = -1022 ∧ 1 ≤ r.significand ∧ r.significand ≤ 2 ^ 52 - 1) ∧
    (r.cls = .normal → -1022 ≤ r.exponent ∧ r.exponent ≤ 1023 ∧ r.significand ≤ 2 ^ 52 - 1) ∧
    (r.cls = .infinity → r.exponent = 0 ∧ r.significand = 0) ∧
    (r.cls = .nan → r.exponent = 0 ∧ 1 ≤ r.significand ∧ r.significand ≤ 2 ^ 52 - 1)

/-- R63: DECOMPOSE is total, and the four fields other than `rawBits` determine the word. -/
def Obligations.DecomposeIsTotalAndInjective : Prop :=
  (∀ (d : DecomposerId) (x : Word) (s : State), ∃ t : State, exec (.decompose ⟨d, x⟩) s = .next t) ∧
  (∀ x y : Word, (decomposeWord x).sign = (decomposeWord y).sign →
    (decomposeWord x).exponent = (decomposeWord y).exponent →
    (decomposeWord x).significand = (decomposeWord y).significand →
    (decomposeWord x).cls = (decomposeWord y).cls → x = y)

/-- R17, R18: a record is well formed exactly when it is the record of a word; the extended record is the one
further record of WFX, and its word decomposes as Normal with exponent -1022 and significand 0. -/
def Obligations.WellFormedRecordsAreTheDecomposerImage : Prop :=
  (∀ r : FloatRepr, wf r = true ↔ ∃ x : Word, r = decomposeWord x) ∧
  (∀ r : FloatRepr, wfx r = true ↔ wf r = true ∨
    (r.cls = .subnormal ∧ r.exponent = -1022 ∧ r.significand = 2 ^ 52 ∧
      r.rawBits.toNat = r.sign.toNat * 2 ^ 63 + 2 ^ 52)) ∧
  (∀ r : FloatRepr, wfx r = true → wf r = false →
    (decomposeWord r.rawBits).cls = .normal ∧ (decomposeWord r.rawBits).exponent = -1022 ∧
    (decomposeWord r.rawBits).significand = 0)

/-- R61: each class row on its own words, class and stored exponent as the table gives them and significand = F. That
the rows are operations of their own, shown at the driven decomposer's ports, is the model's choice (log 3). -/
def Obligations.ClassRowsGiveTheTableRecords : Prop :=
  (∀ (d : DecomposerId) (sg : Bool) (s : State) (w : Word), w.toNat = sg.toNat * 2 ^ 63 →
    exec (.classZero ⟨d, sg⟩) s = .next (s.withDecomposer d (some { value := w, repr := {
      rawBits := w, sign := sg, exponent := 0, significand := 0, cls := .zero } }))) ∧
  (∀ (d : DecomposerId) (sg : Bool) (f : BitVec 52) (s : State) (w : Word), f ≠ 0#52 →
    w.toNat = sg.toNat * 2 ^ 63 + f.toNat →
    exec (.classSubnormal ⟨d, sg⟩ f) s = .next (s.withDecomposer d (some { value := w, repr := {
      rawBits := w, sign := sg, exponent := -1022, significand := f.toNat, cls := .subnormal } }))) ∧
  (∀ (d : DecomposerId) (sg : Bool) (e : BitVec 11) (f : BitVec 52) (s : State) (w : Word),
    1 ≤ e.toNat → e.toNat ≤ 2046 →
    w.toNat = sg.toNat * 2 ^ 63 + e.toNat * 2 ^ 52 + f.toNat →
    exec (.classNormal ⟨d, sg⟩ e f) s = .next (s.withDecomposer d (some { value := w, repr := {
      rawBits := w, sign := sg, exponent := (e.toNat : Int) - 1023, significand := f.toNat, cls := .normal } }))) ∧
  (∀ (d : DecomposerId) (sg : Bool) (s : State) (w : Word), w.toNat = sg.toNat * 2 ^ 63 + 2047 * 2 ^ 52 →
    exec (.classInfinity ⟨d, sg⟩) s = .next (s.withDecomposer d (some { value := w, repr := {
      rawBits := w, sign := sg, exponent := 0, significand := 0, cls := .infinity } }))) ∧
  (∀ (d : DecomposerId) (sg : Bool) (f : BitVec 52) (s : State) (w : Word), f ≠ 0#52 →
    w.toNat = sg.toNat * 2 ^ 63 + 2047 * 2 ^ 52 + f.toNat →
    exec (.classNaN ⟨d, sg⟩ f) s = .next (s.withDecomposer d (some { value := w, repr := {
      rawBits := w, sign := sg, exponent := 0, significand := f.toNat, cls := .nan } })))

/-- The class row a word is read as does what DECOMPOSE does on that word: classification is done by DECOMPOSE (note
of the class rows in opcode_table.json; log 3). -/
def Obligations.ClassRowsActAsDecompose : Prop :=
  ∀ (d : DecomposerId) (x : Word) (i : Instr) (s : State), decode (.classifier d x) = .ok i →
    exec i s = exec (.decompose ⟨d, x⟩) s

/-- Fields that form a word outside a class row's class are refused by name (R42's conditions; log 3). -/
def Obligations.IllFormedClassRowsAreRefused : Prop :=
  ∀ (d : DecomposerId) (sg : Bool) (f : BitVec 52) (s : State),
    exec (.classSubnormal ⟨d, sg⟩ 0#52) s = .refused .operandNotInClass ∧
    exec (.classNaN ⟨d, sg⟩ 0#52) s = .refused .operandNotInClass ∧
    exec (.classNormal ⟨d, sg⟩ 0#11 f) s = .refused .operandNotInClass ∧
    exec (.classNormal ⟨d, sg⟩ 2047#11 f) s = .refused .operandNotInClass

/-! ### COMPOSE (R70 to R77) -/

/-- R70: PACK adds the fraction; within 52 bits it concatenates, and a fraction of 2^52 carries into the field. -/
def Obligations.PackAddsTheFraction : Prop :=
  (∀ (s : Bool) (field frac : Nat), (pack s field frac).toNat = (s.toNat * 2 ^ 63 + field * 2 ^ 52 + frac) % 2 ^ 64) ∧
  (∀ (s : Bool) (field frac : Nat), field ≤ 2047 → frac ≤ 2 ^ 52 - 1 →
    wordSign (pack s field frac) = s.toNat ∧ wordExp (pack s field frac) = field ∧ wordFrac (pack s field frac) = frac) ∧
  (∀ s : Bool, wordSign (pack s 0 (2 ^ 52)) = s.toNat ∧ wordExp (pack s 0 (2 ^ 52)) = 1 ∧
    wordFrac (pack s 0 (2 ^ 52)) = 0)

/-- R71, R72: the word of every record in the domain, presented at the recomposer's ports and nothing else changed. -/
def Obligations.ComposePacksTheFieldsOfTheClass : Prop :=
  ∀ (r : FloatRepr) (s : State), inComposeDomain r → ∃ w : Word,
    exec (.compose r) s = .next { s with recomposer := some { repr := r, value := w } } ∧
    (r.cls = .zero → w.toNat = r.sign.toNat * 2 ^ 63) ∧
    (r.cls = .subnormal → w.toNat = r.sign.toNat * 2 ^ 63 + r.significand) ∧
    (r.cls = .infinity → w.toNat = r.sign.toNat * 2 ^ 63 + 2047 * 2 ^ 52) ∧
    (r.cls = .nan → r.significand = 0 → w.toNat = r.sign.toNat * 2 ^ 63 + 2047 * 2 ^ 52 + 1) ∧
    (r.cls = .nan → r.significand ≠ 0 → w.toNat = r.sign.toNat * 2 ^ 63 + 2047 * 2 ^ 52 + r.significand) ∧
    (r.cls = .normal → (w.toNat : Int) = r.sign.toNat * 2 ^ 63 + (r.exponent + 1023) * 2 ^ 52 + r.significand)

/-- R77: COMPOSE has a result exactly on its domain, which contains every record of WFX; outside it is refused by
name (U1). -/
def Obligations.ComposeCompletesExactlyOnItsDomain : Prop :=
  (∀ (r : FloatRepr) (s : State), inComposeDomain r ↔ ∃ t : State, exec (.compose r) s = .next t) ∧
  (∀ (r : FloatRepr) (s : State), ¬ inComposeDomain r → exec (.compose r) s = .refused .composeOutsideDomain) ∧
  (∀ r : FloatRepr, wfx r = true → inComposeDomain r)

/-- R72: a NaN record with significand 0 composes to a NaN word with fraction 1; the record itself is not changed. -/
def Obligations.ComposeRepairsAnEmptyNaN : Prop :=
  ∀ (r : FloatRepr) (s : State), r.cls = .nan → r.significand = 0 →
    exec (.compose r) s = .next { s with
      recomposer := some { repr := r,
                           value := if r.sign then 0xFFF0000000000001#64 else 0x7FF0000000000001#64 } }

/-- R73: COMPOSE reads class and sign, the exponent of a Normal record only, the significand of a Subnormal, NaN or
Normal record only, and never `rawBits`. -/
def Obligations.ComposeReadsOnlyTheFieldsOfItsClass : Prop :=
  ∀ (r q : FloatRepr) (s : State) (w : Word), r.cls = q.cls → r.sign = q.sign →
    (r.cls = .normal → r.exponent = q.exponent) →
    (r.cls = .normal ∨ r.cls = .subnormal ∨ r.cls = .nan → r.significand = q.significand) →
    exec (.compose r) s = .next { s with recomposer := some { repr := r, value := w } } →
    exec (.compose q) s = .next { s with recomposer := some { repr := q, value := w } }

/-- R74: decomposing a word and composing the record shown at its decomposer's output gives the word back. -/
def Obligations.WordRoundTrip : Prop :=
  ∀ (d : DecomposerId) (x : Word) (s : State), ∃ (r : FloatRepr) (t : State), exec (.decompose ⟨d, x⟩) s = .next t ∧
    t.decomposer d = some { value := x, repr := r } ∧
    exec (.compose r) t = .next { t with recomposer := some { repr := r, value := x } }

/-- R75: composing a record and decomposing the word gives the record back exactly when the record is well formed,
among all those COMPOSE accepts. -/
def Obligations.RecordRoundTrip : Prop :=
  ∀ (d : DecomposerId) (r : FloatRepr) (s : State), inComposeDomain r → ∃ (w : Word) (q : FloatRepr),
    exec (.compose r) s = .next { s with recomposer := some { repr := r, value := w } } ∧
    exec (.decompose ⟨d, w⟩) s = .next (s.withDecomposer d (some { value := w, repr := q })) ∧
    (q = r ↔ wf r = true)

/-- R76: a Subnormal record with significand 2^52 composes to the word of the smallest normal of its sign, which is
the `rawBits` of the extended record. -/
def Obligations.ExtendedRecordComposesToTheSmallestNormal : Prop :=
  (∀ (r : FloatRepr) (s : State), r.cls = .subnormal → r.significand = 2 ^ 52 →
    exec (.compose r) s = .next { s with
      recomposer := some { repr := r,
                           value := if r.sign then 0x8010000000000000#64 else 0x0010000000000000#64 } }) ∧
  (∀ r : FloatRepr, extendedSubnormal r = true →
    r.rawBits = if r.sign then 0x8010000000000000#64 else 0x0010000000000000#64)

/-! ### MULTIPLY: domain, special values, sign (R80 to R92) -/

/-- R90: MULTIPLY has a result exactly when each operand is of WFX or of class NaN; otherwise it is refused by name,
also when the other operand is a NaN (U2). The name given to the unpacking loop that would not end is the model's
(log 7). -/
def Obligations.MultiplyCompletesExactlyOnItsDomain : Prop :=
  (∀ (a b : FloatRepr) (s : State),
    (wfx a = true ∨ a.cls = .nan) ∧ (wfx b = true ∨ b.cls = .nan) ↔ ∃ t : State, exec (.multiply a b) s = .next t) ∧
  (∀ (a b : FloatRepr) (s : State), ¬ ((wfx a = true ∨ a.cls = .nan) ∧ (wfx b = true ∨ b.cls = .nan)) →
    exec (.multiply a b) s = .refused .multiplyOutsideDomain ∨ exec (.multiply a b) s = .refused .unpackNeverEnds) ∧
  (∀ (a b : FloatRepr) (s : State), exec (.multiply a b) s = .refused .unpackNeverEnds ↔
    (a.cls = .normal ∨ a.cls = .subnormal) ∧ (b.cls = .normal ∨ b.cls = .subnormal) ∧
    ((a.cls = .subnormal ∧ a.significand = 0) ∨ (b.cls = .subnormal ∧ b.significand = 0)))

/-- R83: a NaN operand is returned with all five fields unchanged, the first operand first; the other operand, which
must be in the domain (R90), has no part in the result. -/
def Obligations.NaNOperandIsReturnedUnchanged : Prop :=
  ∀ (a b : FloatRepr) (s : State), (wfx a = true ∨ a.cls = .nan) → (wfx b = true ∨ b.cls = .nan) →
    (a.cls = .nan → exec (.multiply a b) s = .next { s with multiplier := some { a := a, b := b, p := a } }) ∧
    (a.cls ≠ .nan → b.cls = .nan →
      exec (.multiply a b) s = .next { s with multiplier := some { a := a, b := b, p := b } })

/-- R84: Infinity x Zero, in either order, gives a NaN with the XOR sign, exponent 0 and fraction
INVALID_NAN_FRACTION, whatever that is in 1 .. 2^52 - 1 (R7; log 6). -/
def Obligations.InfinityTimesZeroGivesTheInvalidNaN : Prop :=
  ∀ (a b : FloatRepr) (s : State), wfx a = true → wfx b = true →
    (a.cls = .infinity ∧ b.cls = .zero ∨ a.cls = .zero ∧ b.cls = .infinity) → ∃ p : FloatRepr,
    exec (.multiply a b) s = .next { s with multiplier := some { a := a, b := b, p := p } } ∧
    p.cls = .nan ∧ p.sign = (a.sign ^^ b.sign) ∧ p.exponent = 0 ∧ p.significand = Config.invalidNanFraction ∧
    1 ≤ p.significand ∧ p.significand ≤ 2 ^ 52 - 1 ∧
    p.rawBits.toNat = (a.sign ^^ b.sign).toNat * 2 ^ 63 + 2047 * 2 ^ 52 + p.significand

/-- R85: an Infinity operand, the other being neither NaN nor Zero, gives Infinity with the XOR sign; Infinity x
Infinity is one of these (C6). -/
def Obligations.InfinityOperandGivesInfinity : Prop :=
  ∀ (a b : FloatRepr) (s : State), wfx a = true → wfx b = true →
    (a.cls = .infinity ∧ b.cls ≠ .nan ∧ b.cls ≠ .zero ∨ b.cls = .infinity ∧ a.cls ≠ .nan ∧ a.cls ≠ .zero) →
    ∃ p : FloatRepr, exec (.multiply a b) s = .next { s with multiplier := some { a := a, b := b, p := p } } ∧
    p.cls = .infinity ∧ p.sign = (a.sign ^^ b.sign) ∧ p.exponent = 0 ∧ p.significand = 0 ∧
    p.rawBits.toNat = (a.sign ^^ b.sign).toNat * 2 ^ 63 + 2047 * 2 ^ 52

/-- R86: a Zero operand, the other being neither NaN nor Infinity, gives Zero with the XOR sign. -/
def Obligations.ZeroOperandGivesZero : Prop :=
  ∀ (a b : FloatRepr) (s : State), wfx a = true → wfx b = true →
    (a.cls = .zero ∧ b.cls ≠ .nan ∧ b.cls ≠ .infinity ∨ b.cls = .zero ∧ a.cls ≠ .nan ∧ a.cls ≠ .infinity) →
    ∃ p : FloatRepr, exec (.multiply a b) s = .next { s with multiplier := some { a := a, b := b, p := p } } ∧
    p.cls = .zero ∧ p.sign = (a.sign ^^ b.sign) ∧ p.exponent = 0 ∧ p.significand = 0 ∧
    p.rawBits.toNat = (a.sign ^^ b.sign).toNat * 2 ^ 63

/-- R81, R87, R88: the class table away from the NaN row and column. The sign is the XOR in every entry; the numeric
path gives Normal, Subnormal, Zero or Infinity, never NaN. -/
def Obligations.ResultClassAndSignTable : Prop :=
  ∀ (a b : FloatRepr) (s : State), wfx a = true → wfx b = true → a.cls ≠ .nan → b.cls ≠ .nan → ∃ p : FloatRepr,
    exec (.multiply a b) s = .next { s with multiplier := some { a := a, b := b, p := p } } ∧
    p.sign = (a.sign ^^ b.sign) ∧
    (p.cls = .nan ↔ a.cls = .infinity ∧ b.cls = .zero ∨ a.cls = .zero ∧ b.cls = .infinity) ∧
    (a.cls = .infinity ∧ b.cls ≠ .zero ∨ b.cls = .infinity ∧ a.cls ≠ .zero → p.cls = .infinity) ∧
    (a.cls = .zero ∧ b.cls ≠ .infinity ∨ b.cls = .zero ∧ a.cls ≠ .infinity → p.cls = .zero)

/-- R90, R19: MULTIPLY keeps WFX, and its result is WF too except in the single corner of R113. -/
def Obligations.ProductsStayWellFormed : Prop :=
  ∀ (a b : FloatRepr) (s : State), wfx a = true → wfx b = true → ∃ p : FloatRepr,
    exec (.multiply a b) s = .next { s with multiplier := some { a := a, b := b, p := p } } ∧ wfx p = true ∧
    (wf p = false ↔ (a.cls = .normal ∨ a.cls = .subnormal) ∧ (b.cls = .normal ∨ b.cls = .subnormal) ∧
      (roundedProductOf a b).exp = -1023 ∧ (roundedProductOf a b).sig = 2 ^ 53 - 1)

/-- R91: without a NaN, exchanging the operands changes no field of the result; exactly one NaN is the result in
either order; of two NaNs the first is. -/
def Obligations.MultiplicationCommutes : Prop :=
  ∀ (a b : FloatRepr) (s : State), (wfx a = true ∨ a.cls = .nan) → (wfx b = true ∨ b.cls = .nan) →
    ∃ p q : FloatRepr,
    exec (.multiply a b) s = .next { s with multiplier := some { a := a, b := b, p := p } } ∧
    exec (.multiply b a) s = .next { s with multiplier := some { a := b, b := a, p := q } } ∧
    (¬ (a.cls = .nan ∧ b.cls = .nan) → p = q) ∧
    (a.cls = .nan → b.cls ≠ .nan → p = a) ∧ (a.cls ≠ .nan → b.cls = .nan → p = b) ∧
    (a.cls = .nan → b.cls = .nan → p = a ∧ q = b)

/-! ### MULTIPLY: the numeric path (R100 to R117) -/

/-- R100, R101: a Normal operand gets its hidden bit; a Subnormal one is shifted left by n = 52 - msb until bit 52 is
set, n being 0 for the extended record only. -/
def Obligations.UnpackingFollowsTheClass : Prop :=
  (∀ r : FloatRepr, wfx r = true → r.cls = .normal →
    unpack r = (r.exponent, 2 ^ 52 + r.significand) ∧ 2 ^ 52 ≤ (unpack r).2 ∧ (unpack r).2 ≤ 2 ^ 53 - 1) ∧
  (∀ r : FloatRepr, wfx r = true → r.cls = .subnormal → ∃ n : Nat,
    n + Nat.log2 r.significand = 52 ∧ (unpack r).2 = r.significand * 2 ^ n ∧ (unpack r).1 = -1022 - n ∧
    2 ^ 52 ≤ (unpack r).2 ∧ (unpack r).2 ≤ 2 ^ 53 - 2 ∧ (n = 0 ↔ r.significand = 2 ^ 52))

/-- R104: RNE_SHIFT's five values, and that its rounded value is the nearest integer to v / 2^n, ties to even. -/
def Obligations.RoundingPrimitiveIsNearestEven : Prop :=
  ∀ v n : Nat, 1 ≤ n →
    (rneShift v n).retained = v / 2 ^ n ∧
    ((rneShift v n).guard = true ↔ v / 2 ^ (n - 1) % 2 = 1) ∧
    ((rneShift v n).sticky = true ↔ v % 2 ^ (n - 1) ≠ 0) ∧
    ((rneShift v n).up = true ↔
      (rneShift v n).guard = true ∧ ((rneShift v n).sticky = true ∨ (rneShift v n).retained % 2 = 1)) ∧
    (rneShift v n).rounded = (rneShift v n).retained + (rneShift v n).up.toNat ∧
    NearestEven v n (rneShift v n).rounded

/-- R102, R103, R105, R106, R108: the product is exact with top bit 104 or 105; it is rounded to nearest even at shift
52 or 53, and a rounding overflow to 2^53, possible below 2^105 only, is halved once. -/
def Obligations.FirstRoundingFollowsTheRules : Prop :=
  ∀ a b : FloatRepr, wfx a = true → wfx b = true → (a.cls = .normal ∨ a.cls = .subnormal) →
    (b.cls = .normal ∨ b.cls = .subnormal) →
    2 ^ 104 ≤ productOf a b ∧ productOf a b ≤ 2 ^ 106 - 2 ^ 54 + 1 ∧
    (productOf a b < 2 ^ 105 → ∃ q : Nat, NearestEven (productOf a b) 52 q ∧
      (q ≠ 2 ^ 53 → (roundedProductOf a b).sig = q ∧ (roundedProductOf a b).exp = exponentOf a b) ∧
      (q = 2 ^ 53 → (roundedProductOf a b).sig = 2 ^ 52 ∧ (roundedProductOf a b).exp = exponentOf a b + 1)) ∧
    (2 ^ 105 ≤ productOf a b →
      NearestEven (productOf a b) 53 (roundedProductOf a b).sig ∧
      (roundedProductOf a b).exp = exponentOf a b + 1)

/-- R107: the ranges of every intermediate of the numeric path on WFX operands: ea, ma, eb, mb; P; e0; e1; S0 and S1,
with their smaller bounds when P[105] = 1, so that a rounding overflow needs P[105] = 0; e, which is e0 or e0 + 1; S;
E'; and on underflow k, T0 and T. -/
def Obligations.NumericIntermediatesKeepTheirRanges : Prop :=
  ∀ a b : FloatRepr, wfx a = true → wfx b = true → (a.cls = .normal ∨ a.cls = .subnormal) →
    (b.cls = .normal ∨ b.cls = .subnormal) →
    (-1074 ≤ (unpack a).1 ∧ (unpack a).1 ≤ 1023 ∧ 2 ^ 52 ≤ (unpack a).2 ∧ (unpack a).2 ≤ 2 ^ 53 - 1) ∧
    (-1074 ≤ (unpack b).1 ∧ (unpack b).1 ≤ 1023 ∧ 2 ^ 52 ≤ (unpack b).2 ∧ (unpack b).2 ≤ 2 ^ 53 - 1) ∧
    (2 ^ 104 ≤ productOf a b ∧ productOf a b ≤ 2 ^ 106 - 2 ^ 54 + 1) ∧
    (-2148 ≤ exponentOf a b ∧ exponentOf a b ≤ 2046) ∧
    (let e1 := normExponent (productOf a b) (exponentOf a b)
     let first := rneShift (productOf a b) (normShift (productOf a b))
     (-2148 ≤ e1 ∧ e1 ≤ 2047 ∧ (e1 = exponentOf a b ∨ e1 = exponentOf a b + 1)) ∧
     (2 ^ 52 ≤ first.retained ∧ first.retained ≤ 2 ^ 53 - 1) ∧
     (2 ^ 52 ≤ first.rounded ∧ first.rounded ≤ 2 ^ 53) ∧
     ((productOf a b).testBit 105 = true → first.retained ≤ 2 ^ 53 - 2 ∧ first.rounded ≤ 2 ^ 53 - 1)) ∧
    (-2148 ≤ (roundedProductOf a b).exp ∧ (roundedProductOf a b).exp ≤ 2047 ∧
      ((roundedProductOf a b).exp = exponentOf a b ∨ (roundedProductOf a b).exp = exponentOf a b + 1)) ∧
    (2 ^ 52 ≤ (roundedProductOf a b).sig ∧ (roundedProductOf a b).sig ≤ 2 ^ 53 - 1) ∧
    (-1125 ≤ candidateField (roundedProductOf a b).exp ∧ candidateField (roundedProductOf a b).exp ≤ 3070) ∧
    (candidateField (roundedProductOf a b).exp ≤ 0 →
      let second := rneShift (roundedProductOf a b).sig (underflowShift (roundedProductOf a b).exp)
      1 ≤ underflowShift (roundedProductOf a b).exp ∧ underflowShift (roundedProductOf a b).exp ≤ 1126 ∧
      second.retained ≤ 2 ^ 52 - 1 ∧ second.rounded ≤ 2 ^ 52)

/-- R110: a rounded exponent with candidate field 2047 or more gives Infinity with the XOR sign. -/
def Obligations.OverflowGivesInfinity : Prop :=
  ∀ (a b : FloatRepr) (s : State), wfx a = true → wfx b = true → (a.cls = .normal ∨ a.cls = .subnormal) →
    (b.cls = .normal ∨ b.cls = .subnormal) → 2047 ≤ (roundedProductOf a b).exp + 1023 → ∃ p : FloatRepr,
    exec (.multiply a b) s = .next { s with multiplier := some { a := a, b := b, p := p } } ∧
    p.cls = .infinity ∧ p.sign = (a.sign ^^ b.sign) ∧ p.exponent = 0 ∧ p.significand = 0 ∧
    p.rawBits.toNat = (a.sign ^^ b.sign).toNat * 2 ^ 63 + 2047 * 2 ^ 52

/-- R114: a candidate field in 1..2046 gives a Normal record with the working exponent and the significand less its
hidden bit. -/
def Obligations.InRangeProductIsNormal : Prop :=
  ∀ (a b : FloatRepr) (s : State), wfx a = true → wfx b = true → (a.cls = .normal ∨ a.cls = .subnormal) →
    (b.cls = .normal ∨ b.cls = .subnormal) → 0 < (roundedProductOf a b).exp + 1023 →
    (roundedProductOf a b).exp + 1023 < 2047 → ∃ p : FloatRepr,
    exec (.multiply a b) s = .next { s with multiplier := some { a := a, b := b, p := p } } ∧
    p.cls = .normal ∧ p.sign = (a.sign ^^ b.sign) ∧ p.exponent = (roundedProductOf a b).exp ∧
    p.significand + 2 ^ 52 = (roundedProductOf a b).sig ∧
    (p.rawBits.toNat : Int) = (a.sign ^^ b.sign).toNat * 2 ^ 63 + (p.exponent + 1023) * 2 ^ 52 + p.significand

/-- R111, R112: a candidate field of 0 or less rounds the rounded significand a second time, to nearest even at shift
k = 1 - E'; 0 is a Zero, anything else a Subnormal; from k = 54 on it is Zero, so the cut-off at 64 is not
observable. -/
def Obligations.UnderflowRoundsASecondTime : Prop :=
  ∀ (a b : FloatRepr) (s : State) (k : Nat), wfx a = true → wfx b = true → (a.cls = .normal ∨ a.cls = .subnormal) →
    (b.cls = .normal ∨ b.cls = .subnormal) → 1 ≤ k → (k : Int) = 1 - ((roundedProductOf a b).exp + 1023) →
    ∃ (p : FloatRepr) (t : Nat),
    exec (.multiply a b) s = .next { s with multiplier := some { a := a, b := b, p := p } } ∧
    NearestEven (roundedProductOf a b).sig k t ∧ p.sign = (a.sign ^^ b.sign) ∧ p.significand = t ∧
    p.rawBits.toNat = (a.sign ^^ b.sign).toNat * 2 ^ 63 + t ∧
    (t = 0 → p.cls = .zero ∧ p.exponent = 0) ∧ (t ≠ 0 → p.cls = .subnormal ∧ p.exponent = -1022) ∧
    (k ≤ 52 → t ≠ 0) ∧ (k = 53 → (roundedProductOf a b).sig = 2 ^ 52 → t = 0) ∧
    (k = 53 → 2 ^ 52 < (roundedProductOf a b).sig → t = 1) ∧ (54 ≤ k → t = 0)

/-- R113: rounding up to 2^52 happens exactly at k = 1 with an all-ones significand, and gives the extended Subnormal
record with the word of the smallest normal (the spec's decision D8; log 12). -/
def Obligations.UnderflowCornerGivesTheExtendedRecord : Prop :=
  ∀ (a b : FloatRepr) (s : State), wfx a = true → wfx b = true → (a.cls = .normal ∨ a.cls = .subnormal) →
    (b.cls = .normal ∨ b.cls = .subnormal) → (roundedProductOf a b).exp + 1023 ≤ 0 → ∃ p : FloatRepr,
    exec (.multiply a b) s = .next { s with multiplier := some { a := a, b := b, p := p } } ∧
    (p.significand = 2 ^ 52 ↔ 1 - ((roundedProductOf a b).exp + 1023) = 1 ∧
      (roundedProductOf a b).sig = 2 ^ 53 - 1) ∧
    (p.significand = 2 ^ 52 → p.cls = .subnormal ∧ p.sign = (a.sign ^^ b.sign) ∧ p.exponent = -1022 ∧
      p.rawBits = if (a.sign ^^ b.sign) then 0x8010000000000000#64 else 0x0010000000000000#64)

/-- R115: the result of MULTIPLY on WFX operands, presented to the recomposer, composes to its own `rawBits`. -/
def Obligations.ProductsComposeToTheirRawBits : Prop :=
  ∀ (a b : FloatRepr) (s : State), wfx a = true → wfx b = true → ∃ (p : FloatRepr) (t : State),
    exec (.multiply a b) s = .next t ∧ t.multiplier = some { a := a, b := b, p := p } ∧
    exec (.compose p) t = .next { t with recomposer := some { repr := p, value := p.rawBits } }

/-- R116: the exact product of the two operands as rationals is P * 2^(e0 - 104) with the XOR sign. The rational a
record denotes is R43's, from general knowledge (log 14). -/
def Obligations.ExactProductAsARational : Prop :=
  ∀ a b : FloatRepr, wfx a = true → wfx b = true → (a.cls = .normal ∨ a.cls = .subnormal) →
    (b.cls = .normal ∨ b.cls = .subnormal) →
    realValue a * realValue b =
      (if (a.sign ^^ b.sign) then -1 else 1) * (productOf a b : ℚ) * (2 : ℚ) ^ (exponentOf a b - 104)

/-- R117, first part: a Normal result is correctly rounded. No finite record of WF is closer to the exact product, and
if another value is as close then the result's significand is even. R43's values and IEEE-754 rounding are from general
knowledge (log 14). -/
def Obligations.NormalResultIsTheNearestDouble : Prop :=
  ∀ (a b p : FloatRepr) (s : State), wfx a = true → wfx b = true → (a.cls = .normal ∨ a.cls = .subnormal) →
    (b.cls = .normal ∨ b.cls = .subnormal) →
    exec (.multiply a b) s = .next { s with multiplier := some { a := a, b := b, p := p } } → p.cls = .normal →
    ∀ r : FloatRepr, wf r = true → isFinite r →
      |realValue p - realValue a * realValue b| ≤ |realValue r - realValue a * realValue b| ∧
      (|realValue p - realValue a * realValue b| = |realValue r - realValue a * realValue b| →
        realValue r = realValue p ∨ p.significand % 2 = 0)

/-- R110, R117: overflow is decided as IEEE-754 rounding to nearest decides it: the result is Infinity exactly when
the exact magnitude is at least half a unit above the largest finite value, 2^1024 - 2^970. IEEE-754 rounding is from
general knowledge (log 14). -/
def Obligations.OverflowThreshold : Prop :=
  ∀ (a b p : FloatRepr) (s : State), wfx a = true → wfx b = true → (a.cls = .normal ∨ a.cls = .subnormal) →
    (b.cls = .normal ∨ b.cls = .subnormal) →
    exec (.multiply a b) s = .next { s with multiplier := some { a := a, b := b, p := p } } →
    (p.cls = .infinity ↔ (2 : ℚ) ^ (1024 : Nat) - 2 ^ (970 : Nat) ≤ |realValue a * realValue b|)

/-- R117, second part: when the result is in or below the subnormal range, it differs from u, the exact product
rounded ONCE to the subnormal grid, exactly when the first rounding was inexact and the second sees a tie, with up
and T0 odd (then T0 + 1 against T0) or without up and T0 even (then T0 against T0 + 1). That IEEE-754 gives u is
from general knowledge (log 14). -/
def Obligations.DoubleRoundingDiffersExactlyAtInexactTies : Prop :=
  ∀ (a b p : FloatRepr) (s : State) (k u : Nat), wfx a = true → wfx b = true →
    (a.cls = .normal ∨ a.cls = .subnormal) → (b.cls = .normal ∨ b.cls = .subnormal) →
    1 ≤ k → (k : Int) = 1 - ((roundedProductOf a b).exp + 1023) →
    NearestEven (productOf a b) (-970 - exponentOf a b).toNat u →
    exec (.multiply a b) s = .next { s with multiplier := some { a := a, b := b, p := p } } →
    (let first := rneShift (productOf a b) (normShift (productOf a b))
     let second := rneShift (roundedProductOf a b).sig k
     let tie := (first.guard = true ∨ first.sticky = true) ∧ second.guard = true ∧ second.sticky = false
     (p.significand ≠ u ↔ tie ∧ (first.up = true ∧ second.retained % 2 = 1 ∨
        first.up = false ∧ second.retained % 2 = 0)) ∧
     (tie → first.up = true → second.retained % 2 = 1 → p.significand = second.retained + 1 ∧ u = second.retained) ∧
     (tie → first.up = false → second.retained % 2 = 0 → p.significand = second.retained ∧ u = second.retained + 1))

/-! ### FMUL64 (R130 to R135)

That FMUL64 shows its stages at the top level's ports and leaves the stand-alone ports as they were, part of every
equation below for its next state, is the model's reading of R15 (log 13). -/

/-- R130, R132: on every pair of words FMUL64 completes, and shows at the top level's ports exactly what DECOMPOSE,
MULTIPLY and COMPOSE show when the host chains them, each word at its operand's decomposer. That only the top level's
ports change is the model's reading of R15 (log 13). -/
def Obligations.FmulIsTheCompositionAndTotal : Prop :=
  ∀ (x y : Word) (s : State), ∃ (w : Word) (ra rb p : FloatRepr),
    exec (.fmul64 x y) s = .next { s with
      top := some { aBits := x, bBits := y, pBits := w, aRepr := ra, bRepr := rb, pRepr := p } } ∧
    exec (.decompose ⟨.a, x⟩) s = .next (s.withDecomposer .a (some { value := x, repr := ra })) ∧
    exec (.decompose ⟨.b, y⟩) s = .next (s.withDecomposer .b (some { value := y, repr := rb })) ∧
    exec (.multiply ra rb) s = .next { s with multiplier := some { a := ra, b := rb, p := p } } ∧
    exec (.compose p) s = .next { s with recomposer := some { repr := p, value := w } }

/-- R131: the word on `p_bits` is the `rawBits` of `p_repr`. That no other port changes is log 13. -/
def Obligations.FmulWordIsTheProductRawBits : Prop :=
  ∀ (x y : Word) (s : State), ∃ ports : TopPorts, exec (.fmul64 x y) s = .next { s with top := some ports } ∧
    ports.aBits = x ∧ ports.bBits = y ∧ ports.pBits = ports.pRepr.rawBits

/-- R133: the result word by operand classes, first row that holds; bit 63 is the XOR sign in all but the first two
rows. In the last row the word is that of the numeric path. That no other port changes is log 13. -/
def Obligations.FmulResultByOperandClass : Prop :=
  ∀ (x y : Word) (s : State), ∃ ports : TopPorts, exec (.fmul64 x y) s = .next { s with top := some ports } ∧
    ports.aBits = x ∧ ports.bBits = y ∧
    (isNaNWord x → ports.pBits = x) ∧ (¬ isNaNWord x → isNaNWord y → ports.pBits = y) ∧
    (isInfinityWord x ∧ isZeroWord y ∨ isZeroWord x ∧ isInfinityWord y →
      ports.pBits.toNat = (wordSign x + wordSign y) % 2 * 2 ^ 63 + 2047 * 2 ^ 52 + Config.invalidNanFraction) ∧
    (isInfinityWord x ∧ ¬ isNaNWord y ∧ ¬ isZeroWord y ∨ isInfinityWord y ∧ ¬ isNaNWord x ∧ ¬ isZeroWord x →
      ports.pBits.toNat = (wordSign x + wordSign y) % 2 * 2 ^ 63 + 2047 * 2 ^ 52) ∧
    (isZeroWord x ∧ ¬ isNaNWord y ∧ ¬ isInfinityWord y ∨ isZeroWord y ∧ ¬ isNaNWord x ∧ ¬ isInfinityWord x →
      ports.pBits.toNat = (wordSign x + wordSign y) % 2 * 2 ^ 63) ∧
    ((isNormalWord x ∨ isSubnormalWord x) → (isNormalWord y ∨ isSubnormalWord y) →
      wordSign ports.pBits = (wordSign x + wordSign y) % 2 ∧
      ports.pBits = (numericPath ports.aRepr ports.bRepr (ports.aRepr.sign ^^ ports.bRepr.sign)).rawBits)

/-- R134, commutativity: exchanging the operands gives the same word unless both are NaN words that differ. That no
other port changes is log 13. -/
def Obligations.FmulCommutesUnlessTwoNaNs : Prop :=
  ∀ (x y : Word) (s : State), ¬ (isNaNWord x ∧ isNaNWord y ∧ x ≠ y) → ∃ (w : Word) (ra rb p : FloatRepr),
    exec (.fmul64 x y) s = .next { s with
      top := some { aBits := x, bBits := y, pBits := w, aRepr := ra, bRepr := rb, pRepr := p } } ∧
    exec (.fmul64 y x) s = .next { s with
      top := some { aBits := y, bBits := x, pBits := w, aRepr := rb, bRepr := ra, pRepr := p } }

/-- R134, identity: multiplying any word by 1.0, on either side, gives that word, NaN payloads and signs included.
That no other port changes is log 13. -/
def Obligations.OneIsTheIdentity : Prop :=
  ∀ (x : Word) (s : State), ∃ l r : TopPorts,
    exec (.fmul64 0x3FF0000000000000#64 x) s = .next { s with top := some l } ∧ l.pBits = x ∧
    exec (.fmul64 x 0x3FF0000000000000#64) s = .next { s with top := some r } ∧ r.pBits = x

/-- R134, sign symmetry: without a NaN operand, flipping bit 63 of an operand flips bit 63 of the result and nothing
else. That no port but the top level's changes is log 13. -/
def Obligations.FlippingAnOperandSignFlipsTheResultSign : Prop :=
  ∀ (x y : Word) (s : State), ¬ isNaNWord x → ¬ isNaNWord y → ∃ u v w : TopPorts,
    exec (.fmul64 x y) s = .next { s with top := some u } ∧
    exec (.fmul64 (x ^^^ 0x8000000000000000#64) y) s = .next { s with top := some v } ∧
    exec (.fmul64 x (y ^^^ 0x8000000000000000#64)) s = .next { s with top := some w } ∧
    v.pBits = u.pBits ^^^ 0x8000000000000000#64 ∧ w.pBits = u.pBits ^^^ 0x8000000000000000#64

/-- R134, powers of two: if the second operand is a Normal power of two and the first is finite and non-zero, the
extended record of R18 included, the first rounding discards nothing and the rounded product is the first operand
scaled. The rational a record denotes is R43's, from general knowledge as the spec marks it (log 14). -/
def Obligations.PowerOfTwoFirstRoundingIsExact : Prop :=
  ∀ a b : FloatRepr, wfx a = true → wf b = true → (a.cls = .normal ∨ a.cls = .subnormal) → b.cls = .normal →
    b.significand = 0 →
    (rneShift (productOf a b) (normShift (productOf a b))).guard = false ∧
    (rneShift (productOf a b) (normShift (productOf a b))).sticky = false ∧
    ((roundedProductOf a b).sig : ℚ) * (2 : ℚ) ^ ((roundedProductOf a b).exp - 52) =
      |realValue a| * (2 : ℚ) ^ b.exponent

/-! ### Purity, frames and invariants -/

/-- The frame of every instruction: only the evaluating sub-block's ports change, whatever was there; what the host has
presented stays. The rules say that an evaluation writes no shared state (R10, R22). That each sub-block, and each of
the two decomposers, has ports of its own which FMUL64 leaves alone is the model's reading of R15 (log 13), and the
list of presented operands is the model's own (log 1). -/
def Obligations.EvaluationChangesOnlyItsOwnPorts : Prop :=
  ∀ (i : Instr) (s t : State), exec i s = .next t →
    t.pending = s.pending ∧
    (∀ d, i.subBlock ≠ .decomposer d → t.decomposer d = s.decomposer d) ∧
    (i.subBlock ≠ .recomposer → t.recomposer = s.recomposer) ∧
    (i.subBlock ≠ .multiplier → t.multiplier = s.multiplier) ∧
    (i.subBlock ≠ .top → t.top = s.top)

/-- R33: a result is determined by the operands alone: from any other state the same instruction shows the same
values at its ports, or is refused alike. -/
def Obligations.EvaluationDependsOnOperandsAlone : Prop :=
  (∀ (i : Instr) (s s' t : State), exec i s = .next t → ∃ t' : State, exec i s' = .next t' ∧
    (∀ d, i.subBlock = .decomposer d → t'.decomposer d = t.decomposer d) ∧
    (i.subBlock = .recomposer → t'.recomposer = t.recomposer) ∧
    (i.subBlock = .multiplier → t'.multiplier = t.multiplier) ∧
    (i.subBlock = .top → t'.top = t.top)) ∧
  (∀ (i : Instr) (s s' : State) (r : Refusal), exec i s = .refused r → exec i s' = .refused r)

/-- R36: evaluations on different sub-blocks, the two decomposers among them, may be made in either order, with the same
state after both. -/
def Obligations.IndependentEvaluationsCommute : Prop :=
  ∀ (i j : Instr) (s si sj : State), i.subBlock ≠ j.subBlock → exec i s = .next si → exec j s = .next sj →
    ∃ t : State, exec j si = .next t ∧ exec i sj = .next t

/-- R140, R144, R50: DECOMPOSE and FMUL64 are never refused, and whatever is refused is an ill-formed operand, under
the name of what is wrong. -/
def Obligations.OnlyIllFormedOperandsAreRefused : Prop :=
  ∀ (i : Instr) (s : State) (r : Refusal), exec i s = .refused r →
    (∃ q : FloatRepr, i = .compose q ∧ ¬ inComposeDomain q ∧ r = .composeOutsideDomain) ∨
    (∃ a b : FloatRepr, i = .multiply a b ∧ ¬ ((wfx a = true ∨ a.cls = .nan) ∧ (wfx b = true ∨ b.cls = .nan)) ∧
      (r = .multiplyOutsideDomain ∨ r = .unpackNeverEnds)) ∨
    (i.wellFormed = false ∧ (∃ d, i.subBlock = .decomposer d) ∧ r = .operandNotInClass)

/-- R161, R164: every step keeps the outputs following the inputs. -/
def Obligations.StepKeepsOutputsFollowingInputs : Prop :=
  ∀ s t : State, portsFollow s → step s = .next t → portsFollow t

/-- R16, R32, R115, R131: every step keeps the words and records at the ports mutually consistent, in every state,
whatever the host has presented. -/
def Obligations.StepKeepsRecordsConsistent : Prop :=
  ∀ s t : State, recordsConsistent s → step s = .next t → recordsConsistent t

/-- Both invariants of the ports hold after reset, where nothing is driven (R20, R160; log 8, log 9). -/
def Obligations.ResetMeetsTheInvariants : Prop :=
  portsFollow State.reset ∧ recordsConsistent State.reset
end

