-- ==== Sys2Proof/Laws/Word.lean ====
section
/-! SUPPORT. The fields of a word and of a packed word as numbers (R41, R70), so that later proofs are arithmetic. -/

namespace Sys2Proof

theorem signField_toNat (x : Word) : (signField x).toNat = x.toNat / 2 ^ 63 := by
  have hx : x.toNat < 2 ^ 64 := x.isLt
  unfold signField
  rw [BitVec.getLsbD, Nat.testBit_eq_decide_div_mod_eq]
  have : x.toNat / 2 ^ 63 = 0 ∨ x.toNat / 2 ^ 63 = 1 := by omega
  rcases this with h | h <;> rw [h] <;> rfl

theorem expField_toNat (x : Word) : (expField x).toNat = x.toNat / 2 ^ 52 % 2048 := by
  simp [expField, Nat.shiftRight_eq_div_pow]

theorem fracField_toNat (x : Word) : (fracField x).toNat = x.toNat % 2 ^ 52 := by
  simp [fracField]

/-- A word is its three fields. -/
theorem word_toNat (x : Word) :
    x.toNat = (signField x).toNat * 2 ^ 63 + (expField x).toNat * 2 ^ 52 + (fracField x).toNat := by
  have hx : x.toNat < 2 ^ 64 := x.isLt
  rw [signField_toNat, expField_toNat, fracField_toNat]
  omega

theorem wordOf_toNat (s : Bool) (e : BitVec 11) (f : BitVec 52) :
    (wordOf s e f).toNat = s.toNat * 2 ^ 63 + e.toNat * 2 ^ 52 + f.toNat := by
  have he := e.isLt
  have hf := f.isLt
  unfold wordOf
  rw [BitVec.toNat_append, BitVec.toNat_append, ← Nat.shiftLeft_add_eq_or_of_lt (by omega),
    ← Nat.shiftLeft_add_eq_or_of_lt (by omega)]
  simp only [BitVec.toNat_ofBool, Nat.shiftLeft_eq]
  omega

theorem bool_toNat_le (s : Bool) : s.toNat ≤ 1 := by cases s <;> decide

theorem bool_toNat_inj {s t : Bool} (h : s.toNat = t.toNat) : s = t := by
  cases s <;> cases t <;> simp_all

theorem signField_wordOf (s : Bool) (e : BitVec 11) (f : BitVec 52) : signField (wordOf s e f) = s := by
  apply bool_toNat_inj
  rw [signField_toNat, wordOf_toNat]
  have he := e.isLt
  have hf := f.isLt
  omega

theorem expField_wordOf (s : Bool) (e : BitVec 11) (f : BitVec 52) : expField (wordOf s e f) = e := by
  apply BitVec.eq_of_toNat_eq
  rw [expField_toNat, wordOf_toNat]
  have he := e.isLt
  have hf := f.isLt
  omega

theorem fracField_wordOf (s : Bool) (e : BitVec 11) (f : BitVec 52) : fracField (wordOf s e f) = f := by
  apply BitVec.eq_of_toNat_eq
  rw [fracField_toNat, wordOf_toNat]
  have he := e.isLt
  have hf := f.isLt
  omega

/-- Words are equal when their three fields are. -/
theorem word_ext {x y : Word} (hs : signField x = signField y) (he : expField x = expField y)
    (hf : fracField x = fracField y) : x = y := by
  apply BitVec.eq_of_toNat_eq
  rw [word_toNat x, word_toNat y, hs, he, hf]

theorem wordOf_fields (x : Word) : wordOf (signField x) (expField x) (fracField x) = x :=
  word_ext (signField_wordOf ..) (expField_wordOf ..) (fracField_wordOf ..)

namespace Machine

theorem pack_toNat_mod (s : Bool) (field frac : Nat) :
    (pack s field frac).toNat = (s.toNat * 2 ^ 63 + field * 2 ^ 52 + frac) % 2 ^ 64 := by
  simp [pack, BitVec.toNat_ofNat]

/-- No wrap-around while the exponent field keeps to its 11 bits, the carrying fraction 2^52 included. -/
theorem pack_toNat (s : Bool) {field frac : Nat} (h : field * 2 ^ 52 + frac < 2 ^ 63) :
    (pack s field frac).toNat = s.toNat * 2 ^ 63 + field * 2 ^ 52 + frac := by
  have hs := bool_toNat_le s
  rw [pack_toNat_mod]
  omega

theorem signField_pack (s : Bool) {field frac : Nat} (h : field * 2 ^ 52 + frac < 2 ^ 63) :
    signField (pack s field frac) = s := by
  apply bool_toNat_inj
  rw [signField_toNat, pack_toNat s h]
  omega

theorem expField_pack (s : Bool) {field frac : Nat} (hf : field < 2048) (h : frac < 2 ^ 52) :
    (expField (pack s field frac)).toNat = field := by
  rw [expField_toNat, pack_toNat s (by omega)]
  omega

theorem fracField_pack (s : Bool) {field frac : Nat} (hf : field < 2048) (h : frac < 2 ^ 52) :
    (fracField (pack s field frac)).toNat = frac := by
  rw [fracField_toNat, pack_toNat s (by omega)]
  omega

/-- Packing the fields of a word gives the word. -/
theorem pack_fields (x : Word) : pack (signField x) (expField x).toNat (fracField x).toNat = x := by
  have he := (expField x).isLt
  have hf := (fracField x).isLt
  apply BitVec.eq_of_toNat_eq
  rw [pack_toNat _ (by omega), ← word_toNat]

theorem wordOf_eq_pack (s : Bool) (e : BitVec 11) (f : BitVec 52) : wordOf s e f = pack s e.toNat f.toNat := by
  have he := e.isLt
  have hf := f.isLt
  apply BitVec.eq_of_toNat_eq
  rw [wordOf_toNat, pack_toNat _ (by omega)]

end Machine

end Sys2Proof
end

