-- ==== Sys2Proof/Laws/Bundle.lean ====
section
/-! SUPPORT. The bundle as a number (R45), the class codes (R14), and the class rows read by field (R42): the small
lemmas the encoding statements rest on. -/

namespace Sys2Proof

theorem classOfCode_classCode (c : FloatClass) : classOfCode (classCode c) = some c := by cases c <;> decide

theorem classCode_of_classOfCode {c : BitVec 3} {k : FloatClass} (h : classOfCode c = some k) : classCode k = c := by
  revert c k
  decide

theorem classOfCode_eq_none_iff (c : BitVec 3) : classOfCode c = none ↔ 5 ≤ c.toNat := by
  revert c
  decide

theorem bundleOf_toNat (r : FloatRepr) :
    (bundleOf r).toNat = (classCode r.cls).toNat * 2 ^ 129 + r.sign.toNat * 2 ^ 128 +
      (BitVec.ofInt 11 r.exponent).toNat * 2 ^ 117 + (BitVec.ofNat 53 r.significand).toNat * 2 ^ 64 +
      r.rawBits.toNat := by
  have hx := (BitVec.ofInt 11 r.exponent).isLt
  have hm := (BitVec.ofNat 53 r.significand).isLt
  have hr := r.rawBits.isLt
  have hs := bool_toNat_le r.sign
  unfold bundleOf
  simp only [BitVec.toNat_append, BitVec.toNat_ofBool]
  rw [← Nat.shiftLeft_add_eq_or_of_lt (by omega), ← Nat.shiftLeft_add_eq_or_of_lt (by omega),
    ← Nat.shiftLeft_add_eq_or_of_lt (by omega), ← Nat.shiftLeft_add_eq_or_of_lt (by omega)]
  simp only [Nat.shiftLeft_eq]
  omega

theorem slice_toNat {n : Nat} (w : BitVec n) (lo len : Nat) :
    (w.extractLsb' lo len).toNat = w.toNat / 2 ^ lo % 2 ^ len := by
  simp [Nat.shiftRight_eq_div_pow]

theorem getLsbD_toNat {n : Nat} (w : BitVec n) (i : Nat) : (w.getLsbD i).toNat = w.toNat / 2 ^ i % 2 := by
  rw [BitVec.getLsbD, Nat.testBit_eq_decide_div_mod_eq]
  have : w.toNat / 2 ^ i % 2 = 0 ∨ w.toNat / 2 ^ i % 2 = 1 := by omega
  rcases this with h | h <;> rw [h] <;> rfl

/-- The signals of a bundle. -/
theorem bundle_signals (r : FloatRepr) :
    (bundleOf r).extractLsb' 129 3 = classCode r.cls ∧ (bundleOf r).getLsbD 128 = r.sign ∧
      (bundleOf r).extractLsb' 117 11 = BitVec.ofInt 11 r.exponent ∧
      (bundleOf r).extractLsb' 64 53 = BitVec.ofNat 53 r.significand ∧
      (bundleOf r).extractLsb' 0 64 = r.rawBits := by
  have hc := (classCode r.cls).isLt
  have hx := (BitVec.ofInt 11 r.exponent).isLt
  have hm := (BitVec.ofNat 53 r.significand).isLt
  have hr := r.rawBits.isLt
  have hs := bool_toNat_le r.sign
  refine ⟨?_, bool_toNat_inj ?_, ?_, ?_, ?_⟩
  · apply BitVec.eq_of_toNat_eq
    rw [slice_toNat, bundleOf_toNat]
    omega
  · rw [getLsbD_toNat, bundleOf_toNat]
    omega
  · apply BitVec.eq_of_toNat_eq
    rw [slice_toNat, bundleOf_toNat]
    omega
  · apply BitVec.eq_of_toNat_eq
    rw [slice_toNat, bundleOf_toNat]
    omega
  · apply BitVec.eq_of_toNat_eq
    rw [slice_toNat, bundleOf_toNat]
    omega

/-- An exponent that fits the 11-bit signal is read back as itself. -/
theorem exponent_signal {e : Int} (h1 : -1024 ≤ e) (h2 : e ≤ 1023) : (BitVec.ofInt 11 e).toInt = e := by
  rw [BitVec.toInt_ofInt, Int.bmod_def]
  split <;> omega

theorem fits_iff (r : FloatRepr) :
    r.fits = true ↔ -1024 ≤ r.exponent ∧ r.exponent ≤ 1023 ∧ r.significand < 2 ^ 53 := by
  simp [FloatRepr.fits, and_assoc]

theorem reprOf_bundleOf {r : FloatRepr} (h : r.fits = true) : reprOf (bundleOf r) = .ok r := by
  obtain ⟨h1, h2, h3⟩ := (fits_iff r).1 h
  obtain ⟨hc, hs, hx, hm, hr⟩ := bundle_signals r
  unfold reprOf
  rw [hc, hs, hx, hm, hr, classOfCode_classCode, exponent_signal h1 h2, BitVec.toNat_ofNat, Nat.mod_eq_of_lt h3]

/-- A bundle that carries a record carries one that fits, and is that record's bundle. -/
theorem bundleOf_reprOf {w : Bundle} {r : FloatRepr} (h : reprOf w = .ok r) : r.fits = true ∧ bundleOf r = w := by
  unfold reprOf at h
  split at h
  · cases h
  · rename_i c hc
    cases h
    refine ⟨(fits_iff _).2 ⟨?_, ?_, ?_⟩, ?_⟩
    · exact BitVec.le_toInt (w.extractLsb' 117 11)
    · exact Int.le_of_lt_add_one (BitVec.toInt_lt (x := w.extractLsb' 117 11))
    · exact (w.extractLsb' 64 53).isLt
    · apply BitVec.eq_of_toNat_eq
      rw [bundleOf_toNat]
      simp only [classCode_of_classOfCode hc, BitVec.ofInt_toInt, BitVec.toNat_ofNat, slice_toNat, getLsbD_toNat]
      have := w.isLt
      omega

theorem reprOf_eq_error_iff (w : Bundle) (e : DecodeError) : reprOf w = .error e ↔ 5 ≤ w.toNat / 2 ^ 129 := by
  have hw := w.isLt
  have hs : (w.extractLsb' 129 3).toNat = w.toNat / 2 ^ 129 := by
    rw [slice_toNat]
    omega
  rw [← hs, ← classOfCode_eq_none_iff]
  cases e
  unfold reprOf
  split <;> simp_all

/-! ### The class rows (R42) -/

/-- The masked tests of the class rows, on the fields of the word. -/
theorem mask_magnitude (x : Word) :
    (x &&& 0x7FFFFFFFFFFFFFFF#64).toNat = (expField x).toNat * 2 ^ 52 + (fracField x).toNat := by
  have : (x &&& 0x7FFFFFFFFFFFFFFF#64).toNat = x.toNat % 2 ^ 63 := by
    rw [BitVec.toNat_and]
    exact Nat.and_two_pow_sub_one_eq_mod x.toNat 63
  rw [this, expField_toNat, fracField_toNat]
  omega

theorem mask_field (x : Word) : (x &&& 0x7FF0000000000000#64).toNat = (expField x).toNat * 2 ^ 52 := by
  rw [BitVec.toNat_and, expField_toNat, show (0x7FF0000000000000#64 : Word).toNat = (2 ^ 11 - 1) * 2 ^ 52 from rfl]
  apply Nat.eq_of_testBit_eq
  intro i
  rw [Nat.testBit_and, Nat.testBit_mul_two_pow, Nat.testBit_two_pow_sub_one, Nat.testBit_mul_two_pow,
    show (2048 : Nat) = 2 ^ 11 from rfl, Nat.testBit_mod_two_pow, Nat.testBit_div_two_pow]
  rcases Nat.lt_or_ge i 52 with h | h
  · simp [Nat.not_le.2 h]
  · rw [Nat.sub_add_cancel h]
    simp [h, Bool.and_comm]

/-- The class of the first matching row, by exponent field and fraction. -/
theorem classOfWord_eq (x : Word) :
    classOfWord x =
      if expField x = 0#11 ∧ fracField x = 0#52 then .zero
      else if expField x = 0#11 then .subnormal
      else if expField x = 2047#11 ∧ fracField x = 0#52 then .infinity
      else if expField x = 2047#11 then .nan
      else .normal := by
  have hm := mask_magnitude x
  have he := mask_field x
  have hf := (fracField x).isLt
  have r1 : (x &&& 0x7FFFFFFFFFFFFFFF#64 = 0#64) ↔ (expField x = 0#11 ∧ fracField x = 0#52) := by
    rw [← BitVec.toNat_inj, ← BitVec.toNat_inj, ← BitVec.toNat_inj, hm]
    simp only [BitVec.toNat_ofNat]
    omega
  have r2 : (x &&& 0x7FF0000000000000#64 = 0#64) ↔ expField x = 0#11 := by
    rw [← BitVec.toNat_inj, ← BitVec.toNat_inj, he]
    simp only [BitVec.toNat_ofNat]
    omega
  have r3 : (x &&& 0x7FFFFFFFFFFFFFFF#64 = 0x7FF0000000000000#64) ↔ (expField x = 2047#11 ∧ fracField x = 0#52) := by
    rw [← BitVec.toNat_inj, ← BitVec.toNat_inj, ← BitVec.toNat_inj, hm]
    simp only [BitVec.toNat_ofNat]
    omega
  have r4 : (x &&& 0x7FF0000000000000#64 = 0x7FF0000000000000#64) ↔ expField x = 2047#11 := by
    rw [← BitVec.toNat_inj, ← BitVec.toNat_inj, he]
    simp only [BitVec.toNat_ofNat]
    omega
  have r5 : x &&& 0#64 = 0#64 := by simp
  unfold classOfWord classRows
  simp only [List.find?_cons, r1, r2, r3, r4, r5, decide_true]
  by_cases h1 : expField x = 0#11 ∧ fracField x = 0#52
  · simp [h1]
  · by_cases h2 : expField x = 0#11
    · simp_all
    · by_cases h3 : expField x = 2047#11 ∧ fracField x = 0#52
      · simp_all
      · by_cases h4 : expField x = 2047#11 <;> simp_all

end Sys2Proof
end

