-- ==== Sys2Proof/Laws/Records.lean ====
section
/-! SUPPORT. Records: well-formedness (R17, R18), what DECOMPOSE gives (R60), COMPOSE on its domain (R77), and the
records mkrepr builds (R82). -/

namespace Sys2Proof.Machine

/-! ### WF and WFX -/

theorem wf_iff (r : FloatRepr) :
    wf r = true ↔ fieldRanges r = true ∧ r.rawBits = pack r.sign (packField r.cls r.exponent) r.significand := by
  simp [wf]

theorem extendedSubnormal_iff (r : FloatRepr) :
    extendedSubnormal r = true ↔
      r.cls = .subnormal ∧ r.exponent = -1022 ∧ r.significand = 2 ^ 52 ∧ r.rawBits = pack r.sign 0 (2 ^ 52) := by
  simp [extendedSubnormal, and_assoc]

theorem wfx_iff (r : FloatRepr) : wfx r = true ↔ wf r = true ∨ extendedSubnormal r = true := by
  simp [wfx]

theorem multiplyOperand_iff (r : FloatRepr) : multiplyOperand r = true ↔ wfx r = true ∨ r.cls = .nan := by
  simp [multiplyOperand]

theorem finiteNonzero_iff (r : FloatRepr) : finiteNonzero r = true ↔ r.cls = .normal ∨ r.cls = .subnormal := by
  simp [finiteNonzero]

theorem wfx_of_wf {r : FloatRepr} (h : wf r = true) : wfx r = true := (wfx_iff r).2 (.inl h)

/-- A well-formed record's exponent field keeps to 11 bits and its significand to 52. -/
theorem wf_bounds {r : FloatRepr} (h : fieldRanges r = true) :
    packField r.cls r.exponent < 2048 ∧ r.significand < 2 ^ 52 := by
  unfold fieldRanges at h
  unfold packField
  split at h <;> simp_all
  omega

/-- What `WFX` says of a Normal record. -/
theorem wfx_normal {r : FloatRepr} (h : wfx r = true) (hc : r.cls = .normal) :
    -1022 ≤ r.exponent ∧ r.exponent ≤ 1023 ∧ r.significand < 2 ^ 52 := by
  simp only [wfx, wf, fieldRanges, extendedSubnormal, hc] at h
  simp at h
  omega

/-- What `WFX` says of a Subnormal record: the extended record is its upper bound. -/
theorem wfx_subnormal {r : FloatRepr} (h : wfx r = true) (hc : r.cls = .subnormal) :
    r.exponent = -1022 ∧ 1 ≤ r.significand ∧ r.significand ≤ 2 ^ 52 := by
  simp only [wfx, wf, fieldRanges, extendedSubnormal, hc] at h
  simp at h
  omega

/-! ### DECOMPOSE -/

theorem decomposeWord_cls (x : Word) : (decomposeWord x).cls = classOfWord x := by
  rw [classOfWord_eq]
  unfold decomposeWord classify
  split_ifs <;> rfl

theorem packField_decomposeWord (x : Word) :
    packField (decomposeWord x).cls (decomposeWord x).exponent = (expField x).toNat := by
  unfold decomposeWord classify packField
  split_ifs with h1 h2 h3 h4
  · simp [h1.1]
  · simp [h2]
  · simp [h3.1]
  · simp [h4]
  · simp

theorem decomposeWord_fieldRanges (x : Word) : fieldRanges (decomposeWord x) = true := by
  have hf := (fracField x).isLt
  have he := (expField x).isLt
  have nz : fracField x ≠ 0#52 → 1 ≤ (fracField x).toNat := fun h => by
    rw [Ne, ← BitVec.toNat_inj] at h
    exact Nat.one_le_iff_ne_zero.2 h
  unfold decomposeWord classify fieldRanges
  split_ifs with h1 h2 h3 h4
  · simp [h1.2]
  · have := nz (fun h => h1 ⟨h2, h⟩)
    simp
    omega
  · simp [h3.2]
  · have := nz (fun h => h3 ⟨h4, h⟩)
    simp
    omega
  · rw [← BitVec.toNat_inj] at h2 h4
    simp only [BitVec.toNat_ofNat] at h2 h4
    simp
    omega

/-- The record of a word is well formed (R62, R19). -/
theorem decomposeWord_wf (x : Word) : wf (decomposeWord x) = true := by
  rw [wf_iff, packField_decomposeWord]
  exact ⟨decomposeWord_fieldRanges x, (pack_fields x).symm⟩

/-- A well-formed record is the record of its own word (R17, R75). -/
theorem decomposeWord_rawBits {r : FloatRepr} (h : wf r = true) : decomposeWord r.rawBits = r := by
  obtain ⟨hr, hw⟩ := (wf_iff r).1 h
  obtain ⟨hf, hm⟩ := wf_bounds hr
  have s1 : signField r.rawBits = r.sign := by rw [hw, signField_pack _ (by omega)]
  have s2 : (expField r.rawBits).toNat = packField r.cls r.exponent := by rw [hw, expField_pack _ hf hm]
  have s3 : (fracField r.rawBits).toNat = r.significand := by rw [hw, fracField_pack _ hf hm]
  obtain ⟨raw, sg, e, m, c⟩ := r
  simp only at s1 s2 s3 hr
  have e0 : expField raw = 0#11 ↔ packField c e = 0 := by rw [← BitVec.toNat_inj, s2]; rfl
  have e1 : expField raw = 2047#11 ↔ packField c e = 2047 := by rw [← BitVec.toNat_inj, s2]; rfl
  have f0 : fracField raw = 0#52 ↔ m = 0 := by rw [← BitVec.toNat_inj, s3]; rfl
  unfold decomposeWord classify
  simp only [e0, e1, f0, s1, s2, s3]
  cases c <;> simp [fieldRanges, packField] at hr ⊢ <;> (repeat' split) <;> simp <;> omega

/-! ### COMPOSE -/

theorem compose_of_domain {r : FloatRepr} (h : composeDomain r = true) : compose r = .ok (composeWord r) := by
  simp [compose, h]

theorem compose_outside {r : FloatRepr} (h : composeDomain r = false) : compose r = .error .composeOutsideDomain := by
  simp [compose, h]

theorem composeDomain_of_wfx {r : FloatRepr} (h : wfx r = true) : composeDomain r = true := by
  cases hc : r.cls <;> simp only [composeDomain, hc]
  · have := wfx_normal h hc
    simp
    omega
  · have := wfx_subnormal h hc
    simp
    omega
  · simp only [wfx, wf, fieldRanges, extendedSubnormal, hc] at h
    simp at h
    simp
    omega

/-- COMPOSE of a record of `WFX` is the record's own word (R115). -/
theorem compose_wfx {r : FloatRepr} (h : wfx r = true) : compose r = .ok r.rawBits := by
  rw [compose_of_domain (composeDomain_of_wfx h)]
  congr 1
  rcases (wfx_iff r).1 h with hw | hx
  · obtain ⟨hr, hb⟩ := (wf_iff r).1 hw
    rw [hb]
    unfold composeWord composeFraction
    cases hc : r.cls <;> simp [fieldRanges, hc] at hr ⊢
    · rw [hr.2]
    · rw [hr.2]
    · rw [if_neg (by omega)]
  · obtain ⟨hc, he, hm, hb⟩ := (extendedSubnormal_iff r).1 hx
    rw [hb]
    unfold composeWord composeFraction packField
    rw [hc, hm]

/-! ### mkrepr (R82) -/

theorem mkRepr_zero_wf (s : Bool) : wf (mkRepr .zero s 0 0) = true := by
  simp [wf, mkRepr, fieldRanges, packFraction]

theorem mkRepr_infinity_wf (s : Bool) : wf (mkRepr .infinity s 0 0) = true := by
  simp [wf, mkRepr, fieldRanges, packFraction]

theorem mkRepr_nan_wf (s : Bool) {m : Nat} (h1 : 1 ≤ m) (h2 : m < 2 ^ 52) : wf (mkRepr .nan s 0 m) = true := by
  refine (wf_iff _).2 ⟨?_, rfl⟩
  unfold mkRepr fieldRanges
  simp
  omega

theorem mkRepr_subnormal_wf (s : Bool) {m : Nat} (h1 : 1 ≤ m) (h2 : m < 2 ^ 52) :
    wf (mkRepr .subnormal s (-1022) m) = true := by
  refine (wf_iff _).2 ⟨?_, rfl⟩
  unfold mkRepr fieldRanges
  simp
  omega

theorem mkRepr_subnormal_extended (s : Bool) : extendedSubnormal (mkRepr .subnormal s (-1022) (2 ^ 52)) = true := by
  simp [extendedSubnormal, mkRepr, packField, packFraction]

theorem mkRepr_normal_wf (s : Bool) {e : Int} {m : Nat} (h1 : -1022 ≤ e) (h2 : e ≤ 1023) (h3 : m < 2 ^ 52) :
    wf (mkRepr .normal s e m) = true := by
  refine (wf_iff _).2 ⟨?_, rfl⟩
  unfold mkRepr fieldRanges
  simp
  omega

end Sys2Proof.Machine
end

