-- ==== Sys2Proof/Laws/Rounding.lean ====
section
/-! SUPPORT. The rounding primitive (R104): what guard, sticky and up say of the discarded part, and what the rounded
value can be. -/

namespace Sys2Proof.Machine

theorem rneShift_retained (v n : Nat) : (rneShift v n).retained = v / 2 ^ n := Nat.shiftRight_eq_div_pow v n

theorem guardBit_iff (v n : Nat) : guardBit v n = true ↔ v / 2 ^ (n - 1) % 2 = 1 := by
  rw [guardBit, Nat.testBit_eq_decide_div_mod_eq, decide_eq_true_iff]

theorem stickyBit_iff (v n : Nat) : stickyBit v n = true ↔ v % 2 ^ (n - 1) ≠ 0 := by
  rw [stickyBit, decide_eq_true_iff]

theorem retained_odd_iff (v n : Nat) : (v >>> n).testBit 0 = true ↔ v / 2 ^ n % 2 = 1 := by
  rw [Nat.testBit_zero, decide_eq_true_iff, Nat.shiftRight_eq_div_pow]

/-- The discarded part by guard and sticky. -/
theorem discarded_eq (v m : Nat) :
    v % 2 ^ (m + 1) = v % 2 ^ m + 2 ^ m * (v / 2 ^ m % 2) ∧ v / 2 ^ (m + 1) = v / 2 ^ m / 2 := by
  rw [Nat.pow_succ]
  exact ⟨Nat.mod_mul, (Nat.div_div_eq_div_mul v (2 ^ m) 2).symm⟩

/-- Guard and sticky decide how the discarded part compares with one half. -/
theorem guard_sticky_iff {v n : Nat} (h : 1 ≤ n) :
    (guardBit v n = true ↔ 2 ^ n ≤ 2 * (v % 2 ^ n)) ∧
      (guardBit v n = true ∧ stickyBit v n = false ↔ 2 * (v % 2 ^ n) = 2 ^ n) := by
  obtain ⟨m, rfl⟩ : ∃ m, n = m + 1 := ⟨n - 1, by omega⟩
  have hs := stickyBit_iff v (m + 1)
  rw [guardBit_iff, Bool.eq_false_iff, Ne, hs, (discarded_eq v m).1, Nat.add_sub_cancel, Nat.pow_succ]
  have hu := Nat.mod_lt v (Nat.two_pow_pos m)
  have hg : v / 2 ^ m % 2 = 0 ∨ v / 2 ^ m % 2 = 1 := by omega
  rcases hg with hg | hg <;> rw [hg] <;> omega

/-- RNE_SHIFT (R104): below half it keeps the retained bits, above half it adds one, at half it goes to the even
neighbour. -/
theorem rneShift_cases {v n : Nat} (h : 1 ≤ n) :
    (2 * (v % 2 ^ n) < 2 ^ n ∧ (rneShift v n).rounded = v / 2 ^ n) ∨
      (2 * (v % 2 ^ n) = 2 ^ n ∧ (rneShift v n).rounded = v / 2 ^ n + v / 2 ^ n % 2) ∨
      (2 ^ n < 2 * (v % 2 ^ n) ∧ (rneShift v n).rounded = v / 2 ^ n + 1) := by
  obtain ⟨h1, h2⟩ := guard_sticky_iff (v := v) h
  have hr : (rneShift v n).rounded = v / 2 ^ n + (roundUp v n).toNat := by
    rw [← Nat.shiftRight_eq_div_pow]
    rfl
  have hq := retained_odd_iff v n
  rw [hr, roundUp]
  cases hg : guardBit v n <;> cases hk : stickyBit v n <;> cases hb : (v >>> n).testBit 0 <;>
    simp only [hg, hk, hb] at h1 h2 hq <;> simp <;> simp at h1 h2 hq <;> omega

theorem rneShift_le (v n : Nat) : (rneShift v n).rounded ≤ v / 2 ^ n + 1 := by
  have : (roundUp v n).toNat ≤ 1 := by cases roundUp v n <;> decide
  show v >>> n + (roundUp v n).toNat ≤ v / 2 ^ n + 1
  rw [Nat.shiftRight_eq_div_pow]
  omega

theorem rneShift_ge (v n : Nat) : v / 2 ^ n ≤ (rneShift v n).rounded := by
  show v / 2 ^ n ≤ v >>> n + (roundUp v n).toNat
  rw [Nat.shiftRight_eq_div_pow]
  omega

/-- The rounded value is nearest: at most half a unit away (R104). -/
theorem rneShift_nearest {v n : Nat} (h : 1 ≤ n) :
    2 * ((rneShift v n).rounded * 2 ^ n) ≤ 2 * v + 2 ^ n ∧ 2 * v ≤ 2 * ((rneShift v n).rounded * 2 ^ n) + 2 ^ n := by
  have hd := Nat.div_add_mod v (2 ^ n)
  rw [Nat.mul_comm] at hd
  rcases rneShift_cases (v := v) h with ⟨h1, h2⟩ | ⟨h1, h2⟩ | ⟨h1, h2⟩
  · rw [h2]
    omega
  · rw [h2, Nat.add_mul]
    have : v / 2 ^ n % 2 = 0 ∨ v / 2 ^ n % 2 = 1 := by omega
    rcases this with h | h <;> rw [h] <;> omega
  · rw [h2, Nat.add_mul]
    omega

/-- A value that keeps `k` bits after the shift keeps at most 2^k after rounding. -/
theorem rneShift_le_of_lt {v n k : Nat} (h : v < 2 ^ (n + k)) : (rneShift v n).rounded ≤ 2 ^ k := by
  have h1 := rneShift_le v n
  have h2 : v / 2 ^ n < 2 ^ k := by
    rw [Nat.div_lt_iff_lt_mul (Nat.two_pow_pos n), ← Nat.pow_add, Nat.add_comm k n]
    exact h
  omega

end Sys2Proof.Machine
end

