-- ==== Sys2Proof/Laws/Numeric.lean ====
section
/-! SUPPORT. The numeric path (R100 to R115): one lemma per stage, each saying everything the stage can answer. -/

namespace Sys2Proof.Machine

/-! ### Unpacking (R100, R101) -/

theorem log2_eq_iff {m k : Nat} (hm : 1 ≤ m) : Nat.log2 m = k ↔ 2 ^ k ≤ m ∧ m < 2 ^ (k + 1) := by
  have h1 : k ≤ Nat.log2 m ↔ 2 ^ k ≤ m := Nat.le_log2 (by omega)
  have h2 : Nat.log2 m < k + 1 ↔ m < 2 ^ (k + 1) := Nat.log2_lt (by omega)
  omega

theorem log2_double {m : Nat} (hm : 1 ≤ m) : Nat.log2 (2 * m) = Nat.log2 m + 1 := by
  obtain ⟨h1, h2⟩ := (log2_eq_iff hm).1 rfl
  rw [log2_eq_iff (by omega), Nat.pow_succ, Nat.pow_succ]
  rw [Nat.pow_succ] at h2
  omega

/-- The loop of R101 in closed form: with msb the position of the top bit, 52 - msb shifts. -/
theorem renormalise_eq : ∀ (n : Nat) (e : Int) (m : Nat), 1 ≤ m → m < 2 ^ 53 → 52 ≤ Nat.log2 m + n →
    renormalise n e m = (e - (52 - Nat.log2 m : Nat), m * 2 ^ (52 - Nat.log2 m)) := by
  intro n
  induction n with
  | zero =>
    intro e m _ _ h3
    have : 52 - Nat.log2 m = 0 := by omega
    simp [renormalise, this]
  | succ n ih =>
    intro e m h1 h2 h3
    rw [renormalise]
    have hb : m.testBit 52 = true ↔ 2 ^ 52 ≤ m := by
      rw [Nat.testBit_eq_decide_div_mod_eq, decide_eq_true_iff]
      omega
    have hl : 52 ≤ Nat.log2 m ↔ 2 ^ 52 ≤ m := Nat.le_log2 (by omega)
    by_cases hm : 2 ^ 52 ≤ m
    · have : 52 - Nat.log2 m = 0 := by omega
      rw [if_pos (hb.2 hm)]
      simp [this]
    · have hd := log2_double h1
      have hl' : Nat.log2 m < 52 := by omega
      rw [if_neg (fun h => hm (hb.1 h))]
      rw [ih (e - 1) (2 * m) (by omega) (by omega) (by omega), hd]
      have : 52 - Nat.log2 m = 52 - (Nat.log2 m + 1) + 1 := by omega
      rw [this, Nat.pow_succ, Prod.mk.injEq]
      constructor
      · omega
      · ring

theorem unpack_normal {r : FloatRepr} (h : r.cls = .normal) : unpack r = (r.exponent, 2 ^ 52 + r.significand) := by
  simp [unpack, h]

theorem unpack_subnormal {r : FloatRepr} (h : wfx r = true) (hc : r.cls = .subnormal) :
    unpack r = ((-1022 : Int) - (52 - Nat.log2 r.significand : Nat), r.significand * 2 ^ (52 - Nat.log2 r.significand)) := by
  obtain ⟨_, h2, h3⟩ := wfx_subnormal h hc
  rw [unpack, if_pos hc, renormalise_eq 52 _ _ h2 (by omega) (by omega)]

/-- A renormalised significand has 53 bits. -/
theorem renormalised_bounds {m : Nat} (h1 : 1 ≤ m) (h2 : m ≤ 2 ^ 52) :
    2 ^ 52 ≤ m * 2 ^ (52 - Nat.log2 m) ∧ m * 2 ^ (52 - Nat.log2 m) < 2 ^ 53 := by
  obtain ⟨a, b⟩ := (log2_eq_iff h1).1 rfl
  have hl : Nat.log2 m ≤ 52 := by
    have : Nat.log2 m < 53 ↔ m < 2 ^ 53 := Nat.log2_lt (by omega)
    omega
  have p1 : 2 ^ 52 = 2 ^ Nat.log2 m * 2 ^ (52 - Nat.log2 m) := by rw [← Nat.pow_add]; congr 1; omega
  have p2 : 2 ^ 53 = 2 ^ (Nat.log2 m + 1) * 2 ^ (52 - Nat.log2 m) := by rw [← Nat.pow_add]; congr 1; omega
  have pos := Nat.two_pow_pos (52 - Nat.log2 m)
  rw [p1, p2]
  exact ⟨Nat.mul_le_mul_right _ a, Nat.mul_lt_mul_of_pos_right b pos⟩

/-- An unpacked operand: a 53-bit significand with bit 52 set, and an exponent in -1074..1023 (R107). -/
theorem unpack_bounds {r : FloatRepr} (h : wfx r = true) (hc : finiteNonzero r = true) :
    2 ^ 52 ≤ (unpack r).2 ∧ (unpack r).2 < 2 ^ 53 ∧ -1074 ≤ (unpack r).1 ∧ (unpack r).1 ≤ 1023 := by
  rcases (finiteNonzero_iff r).1 hc with hn | hs
  · have := wfx_normal h hn
    rw [unpack_normal hn]
    simp only
    omega
  · obtain ⟨_, h2, h3⟩ := wfx_subnormal h hs
    obtain ⟨b1, b2⟩ := renormalised_bounds h2 h3
    rw [unpack_subnormal h hs]
    simp only
    omega

/-! ### Product and first rounding (R102 to R108) -/

/-- The product of two 53-bit significands (R102). -/
theorem product_bounds {ma mb : Nat} (a1 : 2 ^ 52 ≤ ma) (a2 : ma < 2 ^ 53) (b1 : 2 ^ 52 ≤ mb) (b2 : mb < 2 ^ 53) :
    2 ^ 104 ≤ significandProduct ma mb ∧ significandProduct ma mb ≤ 2 ^ 106 - 2 ^ 54 + 1 := by
  have h1 : 2 ^ 52 * 2 ^ 52 ≤ ma * mb := Nat.mul_le_mul a1 b1
  have h2 : ma * mb ≤ (2 ^ 53 - 1) * (2 ^ 53 - 1) := Nat.mul_le_mul (by omega) (by omega)
  unfold significandProduct
  omega

theorem testBit_105 {p : Nat} (h : p < 2 ^ 106) : p.testBit 105 = true ↔ 2 ^ 105 ≤ p := by
  rw [Nat.testBit_eq_decide_div_mod_eq, decide_eq_true_iff]
  omega

/-- Everything the first rounding can answer (R105, R106, R108): no rounding overflow below 2^105, a rounding
overflow below 2^105, or a product from 2^105 on, where none can happen. -/
theorem roundProduct_cases {p : Nat} (e0 : Int) (h1 : 2 ^ 104 ≤ p) (h2 : p ≤ 2 ^ 106 - 2 ^ 54 + 1) :
    (p < 2 ^ 105 ∧ normShift p = 52 ∧ normExponent p e0 = e0 ∧ (rneShift p 52).rounded < 2 ^ 53 ∧
        2 ^ 52 ≤ (rneShift p 52).rounded ∧ roundProduct p e0 = { sig := (rneShift p 52).rounded, exp := e0 }) ∨
      (p < 2 ^ 105 ∧ normShift p = 52 ∧ normExponent p e0 = e0 ∧ (rneShift p 52).rounded = 2 ^ 53 ∧
        roundProduct p e0 = { sig := 2 ^ 52, exp := e0 + 1 }) ∨
      (2 ^ 105 ≤ p ∧ normShift p = 53 ∧ normExponent p e0 = e0 + 1 ∧ (rneShift p 53).rounded < 2 ^ 53 ∧
        2 ^ 52 ≤ (rneShift p 53).rounded ∧ roundProduct p e0 = { sig := (rneShift p 53).rounded, exp := e0 + 1 }) := by
  have hb := testBit_105 (p := p) (by omega)
  have le52 := rneShift_le p 52
  have ge52 := rneShift_ge p 52
  have le53 := rneShift_le p 53
  have ge53 := rneShift_ge p 53
  unfold roundProduct roundOverflow normShift normExponent
  by_cases h : 2 ^ 105 ≤ p
  · rw [hb.2 h]
    refine .inr (.inr ⟨h, rfl, rfl, by omega, by omega, ?_⟩)
    rw [if_pos rfl, if_pos rfl, if_neg (by omega)]
  · have hf : p.testBit 105 = false := by rw [Bool.eq_false_iff, Ne, hb]; exact h
    simp only [hf, Bool.false_eq_true, if_false]
    by_cases hs : (rneShift p 52).rounded = 2 ^ 53
    · exact .inr (.inl ⟨by omega, trivial, trivial, hs, by rw [if_pos hs]⟩)
    · exact .inl ⟨by omega, trivial, trivial, by omega, by omega, by rw [if_neg hs]⟩

/-- The rounded significand has 53 bits and the exponent grew by at most one (R107, R108). -/
theorem roundProduct_bounds {p : Nat} (e0 : Int) (h1 : 2 ^ 104 ≤ p) (h2 : p ≤ 2 ^ 106 - 2 ^ 54 + 1) :
    2 ^ 52 ≤ (roundProduct p e0).sig ∧ (roundProduct p e0).sig < 2 ^ 53 ∧
      ((roundProduct p e0).exp = e0 ∨ (roundProduct p e0).exp = e0 + 1) := by
  rcases roundProduct_cases e0 h1 h2 with ⟨_, _, _, c, d, h⟩ | ⟨_, _, _, _, h⟩ | ⟨_, _, _, c, d, h⟩ <;> rw [h] <;> simp <;>
    omega

theorem roundedProductOf_bounds {a b : FloatRepr} (ha : wfx a = true) (hb : wfx b = true)
    (fa : finiteNonzero a = true) (fb : finiteNonzero b = true) :
    2 ^ 52 ≤ (roundedProductOf a b).sig ∧ (roundedProductOf a b).sig < 2 ^ 53 ∧
      -2148 ≤ (roundedProductOf a b).exp ∧ (roundedProductOf a b).exp ≤ 2047 := by
  obtain ⟨a1, a2, a3, a4⟩ := unpack_bounds ha fa
  obtain ⟨b1, b2, b3, b4⟩ := unpack_bounds hb fb
  obtain ⟨p1, p2⟩ := product_bounds a1 a2 b1 b2
  obtain ⟨r1, r2, r3⟩ := roundProduct_bounds (exponentSum (unpack a).1 (unpack b).1) p1 p2
  unfold roundedProductOf
  refine ⟨r1, r2, ?_⟩
  unfold exponentSum at r3 ⊢
  omega

/-! ### The second rounding (R111 to R113) -/

/-- The second rounding by shift amount (R112): a subnormal up to 52, the tie at 53, nothing from 54 on. -/
theorem underflowRound_cases {sig k : Nat} (h1 : 2 ^ 52 ≤ sig) (h2 : sig < 2 ^ 53) (hk : 1 ≤ k) :
    (k ≤ 52 ∧ 1 ≤ sig / 2 ^ k ∧ 1 ≤ (rneShift sig k).rounded ∧ (rneShift sig k).rounded ≤ 2 ^ 52) ∨
      (k = 53 ∧ sig = 2 ^ 52 ∧ (rneShift sig k).rounded = 0) ∨
      (k = 53 ∧ 2 ^ 52 < sig ∧ (rneShift sig k).rounded = 1) ∨
      (54 ≤ k ∧ (rneShift sig k).rounded = 0) := by
  have ge := rneShift_ge sig k
  rcases Nat.lt_or_ge k 53 with hk' | hk'
  · left
    have p : 2 ^ k * 2 ^ (52 - k) = 2 ^ 52 := by rw [← Nat.pow_add]; congr 1; omega
    have q : 1 ≤ 2 ^ (52 - k) := Nat.one_le_two_pow
    have l1 : 2 ^ (52 - k) ≤ sig / 2 ^ k := by
      rw [Nat.le_div_iff_mul_le (Nat.two_pow_pos k), Nat.mul_comm, p]
      exact h1
    have l2 : (rneShift sig k).rounded ≤ 2 ^ (53 - k) := rneShift_le_of_lt (by
      have : k + (53 - k) = 53 := by omega
      rw [this]
      exact h2)
    have l3 : 2 ^ (53 - k) ≤ 2 ^ 52 := Nat.pow_le_pow_right (by omega) (by omega)
    omega
  · rcases Nat.lt_or_ge k 54 with hk'' | hk''
    · obtain rfl : k = 53 := by omega
      have c := rneShift_cases (v := sig) (n := 53) (by omega)
      have d : sig / 2 ^ 53 = 0 := Nat.div_eq_of_lt h2
      have m : sig % 2 ^ 53 = sig := Nat.mod_eq_of_lt h2
      rw [d, m] at c
      omega
    · have c := rneShift_cases (v := sig) (n := k) hk
      have l : 2 ^ 54 ≤ 2 ^ k := Nat.pow_le_pow_right (by omega) hk''
      have d : sig / 2 ^ k = 0 := Nat.div_eq_of_lt (by omega)
      have m : sig % 2 ^ k = sig := Nat.mod_eq_of_lt (by omega)
      rw [d, m] at c
      omega

/-- Everything the underflow step can answer (R111, R112): the rounded value, as Zero when it is 0. -/
theorem underflowResult_eq (s : Bool) {sig k : Nat} (h1 : 2 ^ 52 ≤ sig) (h2 : sig < 2 ^ 53) (hk : 1 ≤ k) :
    underflowResult s sig k =
      if (rneShift sig k).rounded = 0 then mkRepr .zero s 0 0
      else mkRepr .subnormal s (-1022) (rneShift sig k).rounded := by
  unfold underflowResult
  by_cases h : 64 ≤ k
  · have := underflowRound_cases h1 h2 hk
    rw [if_pos h, if_pos (by omega)]
  · rw [if_neg h]

theorem underflowRound_le {sig k : Nat} (h1 : 2 ^ 52 ≤ sig) (h2 : sig < 2 ^ 53) (hk : 1 ≤ k) :
    (rneShift sig k).rounded ≤ 2 ^ 52 := by
  have := underflowRound_cases h1 h2 hk
  omega

/-- Rounding up to 2^52 happens in exactly one place (R113). -/
theorem underflowRound_corner {sig k : Nat} (h1 : 2 ^ 52 ≤ sig) (h2 : sig < 2 ^ 53) (hk : 1 ≤ k) :
    (rneShift sig k).rounded = 2 ^ 52 ↔ k = 1 ∧ sig = 2 ^ 53 - 1 := by
  constructor
  · intro h
    have hk1 : k = 1 := by
      rcases Nat.lt_or_ge 1 k with h' | h'
      · have u := underflowRound_cases h1 h2 hk
        have l2 : (rneShift sig k).rounded ≤ 2 ^ (53 - k) := rneShift_le_of_lt (by
          have h53 : k ≤ 53 := by omega
          have : k + (53 - k) = 53 := by omega
          rw [this]
          exact h2)
        have l3 : 2 ^ (53 - k) ≤ 2 ^ 51 := Nat.pow_le_pow_right (by omega) (by omega)
        omega
      · omega
    subst hk1
    have c := rneShift_cases (v := sig) (n := 1) (by omega)
    omega
  · rintro ⟨rfl, rfl⟩
    decide

/-- The underflow step answers a record of WFX, and one of WF but in the corner of R113. -/
theorem underflowResult_wfx (s : Bool) {sig k : Nat} (h1 : 2 ^ 52 ≤ sig) (h2 : sig < 2 ^ 53) (hk : 1 ≤ k) :
    wfx (underflowResult s sig k) = true := by
  rw [underflowResult_eq s h1 h2 hk, wfx_iff]
  have le := underflowRound_le h1 h2 hk
  split
  · exact .inl (mkRepr_zero_wf s)
  · rcases Nat.lt_or_ge (rneShift sig k).rounded (2 ^ 52) with h | h
    · exact .inl (mkRepr_subnormal_wf s (by omega) h)
    · right
      rw [show (rneShift sig k).rounded = 2 ^ 52 by omega]
      exact mkRepr_subnormal_extended s

/-! ### Range resolution (R109 to R114) -/

theorem resolveRange_overflow (s : Bool) {r : Scaled} (h : 2047 ≤ candidateField r.exp) :
    resolveRange s r = mkRepr .infinity s 0 0 := by
  rw [resolveRange, if_pos h]

theorem resolveRange_underflow (s : Bool) {r : Scaled} (h : candidateField r.exp ≤ 0) :
    resolveRange s r = underflowResult s r.sig (underflowShift r.exp) := by
  rw [resolveRange, if_neg (by omega), if_pos h]

theorem resolveRange_normal (s : Bool) {r : Scaled} (h1 : 0 < candidateField r.exp) (h2 : candidateField r.exp < 2047) :
    resolveRange s r = mkRepr .normal s r.exp (r.sig % 2 ^ 52) := by
  rw [resolveRange, if_neg (by omega), if_neg (by omega)]

theorem resolveRange_wfx (s : Bool) {r : Scaled} (h1 : 2 ^ 52 ≤ r.sig) (h2 : r.sig < 2 ^ 53) :
    wfx (resolveRange s r) = true := by
  by_cases c1 : 2047 ≤ candidateField r.exp
  · rw [resolveRange_overflow s c1]
    exact wfx_of_wf (mkRepr_infinity_wf s)
  · by_cases c2 : candidateField r.exp ≤ 0
    · rw [resolveRange_underflow s c2]
      exact underflowResult_wfx s h1 h2 (by unfold underflowShift; omega)
    · rw [resolveRange_normal s (by omega) (by omega)]
      refine wfx_of_wf (mkRepr_normal_wf s ?_ ?_ (Nat.mod_lt _ (by omega)))
      · simp [candidateField] at c2
        omega
      · simp [candidateField] at c1
        omega

/-- The numeric path keeps the sign it is given and never answers a NaN (R81, R87). -/
theorem resolveRange_sign_cls (s : Bool) (r : Scaled) :
    (resolveRange s r).sign = s ∧ (resolveRange s r).cls ≠ .nan := by
  unfold resolveRange underflowResult
  split_ifs <;> simp [mkRepr]

theorem numericPath_wfx {a b : FloatRepr} (s : Bool) (ha : wfx a = true) (hb : wfx b = true)
    (fa : finiteNonzero a = true) (fb : finiteNonzero b = true) : wfx (numericPath a b s) = true := by
  obtain ⟨h1, h2, _⟩ := roundedProductOf_bounds ha hb fa fb
  exact resolveRange_wfx s h1 h2

/-- The numeric path uses its operands through the product and the exponent sum only (R91). -/
theorem roundedProductOf_comm (a b : FloatRepr) : roundedProductOf a b = roundedProductOf b a := by
  unfold roundedProductOf significandProduct exponentSum
  rw [Nat.mul_comm, Int.add_comm]

end Sys2Proof.Machine
end

