-- ==== Sys2Proof/Laws/Multiply.lean ====
section
/-! SUPPORT. MULTIPLY and FMUL64 as functions: the branches of R80, closure over WFX (R90), and the domain. -/

namespace Sys2Proof.Machine

/-- The free value keeps to the range of R7. -/
theorem invalidNanFraction_bounds : 1 ≤ Config.invalidNanFraction ∧ Config.invalidNanFraction < 2 ^ 52 := by
  have := Config.invalidNanCode.isLt
  unfold Config.invalidNanFraction
  omega

/-! ### The branches of R80, in priority order -/

theorem multiplyRecord_nan_left {a b : FloatRepr} (h : a.cls = .nan) : multiplyRecord a b = a := by
  rw [multiplyRecord, if_pos h]

theorem multiplyRecord_nan_right {a b : FloatRepr} (ha : a.cls ≠ .nan) (h : b.cls = .nan) : multiplyRecord a b = b := by
  rw [multiplyRecord, if_neg ha, if_pos h]

theorem infinityTimesZero_iff (a b : FloatRepr) :
    infinityTimesZero a b = true ↔
      (a.cls = .infinity ∧ b.cls = .zero) ∨ (a.cls = .zero ∧ b.cls = .infinity) := by
  simp [infinityTimesZero]

theorem multiplyRecord_invalid {a b : FloatRepr} (h : infinityTimesZero a b = true) :
    multiplyRecord a b = mkRepr .nan (resultSign a b) 0 Config.invalidNanFraction := by
  have h' := (infinityTimesZero_iff a b).1 h
  rw [multiplyRecord, if_neg (by rcases h' with h | h <;> simp [h.1]), if_neg (by rcases h' with h | h <;> simp [h.2]),
    if_pos h]

theorem multiplyRecord_infinity {a b : FloatRepr} (ha : a.cls ≠ .nan) (hb : b.cls ≠ .nan)
    (hz : infinityTimesZero a b = false) (h : a.cls = .infinity ∨ b.cls = .infinity) :
    multiplyRecord a b = mkRepr .infinity (resultSign a b) 0 0 := by
  rw [multiplyRecord, if_neg ha, if_neg hb, hz, if_neg Bool.false_ne_true, if_pos h]

theorem multiplyRecord_zero {a b : FloatRepr} (ha : a.cls ≠ .nan) (hb : b.cls ≠ .nan) (ia : a.cls ≠ .infinity)
    (ib : b.cls ≠ .infinity) (h : a.cls = .zero ∨ b.cls = .zero) :
    multiplyRecord a b = mkRepr .zero (resultSign a b) 0 0 := by
  have hz : infinityTimesZero a b = false := by simp [infinityTimesZero, ia, ib]
  rw [multiplyRecord, if_neg ha, if_neg hb, hz, if_neg Bool.false_ne_true, if_neg (by simp [ia, ib]), if_pos h]

theorem multiplyRecord_numeric {a b : FloatRepr} (fa : finiteNonzero a = true) (fb : finiteNonzero b = true) :
    multiplyRecord a b = numericPath a b (resultSign a b) := by
  have ha := (finiteNonzero_iff a).1 fa
  have hb := (finiteNonzero_iff b).1 fb
  unfold multiplyRecord infinityTimesZero
  rcases ha with ha | ha <;> rcases hb with hb | hb <;> simp [ha, hb]

/-- Every pair of operands takes one of the branches. -/
theorem multiply_branches (a b : FloatRepr) :
    a.cls = .nan ∨ (a.cls ≠ .nan ∧ b.cls = .nan) ∨ infinityTimesZero a b = true ∨
      (a.cls ≠ .nan ∧ b.cls ≠ .nan ∧ infinityTimesZero a b = false ∧ (a.cls = .infinity ∨ b.cls = .infinity)) ∨
      (a.cls ≠ .nan ∧ b.cls ≠ .nan ∧ a.cls ≠ .infinity ∧ b.cls ≠ .infinity ∧ (a.cls = .zero ∨ b.cls = .zero)) ∨
      (finiteNonzero a = true ∧ finiteNonzero b = true) := by
  unfold infinityTimesZero finiteNonzero
  cases a.cls <;> cases b.cls <;> simp

/-- MULTIPLY keeps `WFX` (R90, R19). -/
theorem multiplyRecord_wfx {a b : FloatRepr} (ha : wfx a = true) (hb : wfx b = true) :
    wfx (multiplyRecord a b) = true := by
  have hq := invalidNanFraction_bounds
  rcases multiply_branches a b with h | ⟨h1, h2⟩ | h | ⟨h1, h2, h3, h4⟩ | ⟨h1, h2, h3, h4, h5⟩ | ⟨h1, h2⟩
  · rw [multiplyRecord_nan_left h]
    exact ha
  · rw [multiplyRecord_nan_right h1 h2]
    exact hb
  · rw [multiplyRecord_invalid h]
    exact wfx_of_wf (mkRepr_nan_wf _ hq.1 hq.2)
  · rw [multiplyRecord_infinity h1 h2 h3 h4]
    exact wfx_of_wf (mkRepr_infinity_wf _)
  · rw [multiplyRecord_zero h1 h2 h3 h4 h5]
    exact wfx_of_wf (mkRepr_zero_wf _)
  · rw [multiplyRecord_numeric h1 h2]
    exact numericPath_wfx _ ha hb h1 h2

/-- The XOR sign, in every branch but NaN propagation (R81). -/
theorem multiplyRecord_sign {a b : FloatRepr} (ha : a.cls ≠ .nan) (hb : b.cls ≠ .nan) :
    (multiplyRecord a b).sign = resultSign a b := by
  rcases multiply_branches a b with h | ⟨_, h⟩ | h | ⟨h1, h2, h3, h4⟩ | ⟨h1, h2, h3, h4, h5⟩ | ⟨h1, h2⟩
  · exact absurd h ha
  · exact absurd h hb
  · rw [multiplyRecord_invalid h]
    rfl
  · rw [multiplyRecord_infinity h1 h2 h3 h4]
    rfl
  · rw [multiplyRecord_zero h1 h2 h3 h4 h5]
    rfl
  · rw [multiplyRecord_numeric h1 h2]
    exact (resolveRange_sign_cls _ _).1

theorem resultSign_comm (a b : FloatRepr) : resultSign a b = resultSign b a := Bool.xor_comm _ _

/-! ### The checked operations -/

theorem multiply_of_operands {a b : FloatRepr} (ha : multiplyOperand a = true) (hb : multiplyOperand b = true) :
    multiply a b = .ok (multiplyRecord a b) := by
  simp [multiply, ha, hb]

theorem multiplyOperand_of_wfx {r : FloatRepr} (h : wfx r = true) : multiplyOperand r = true :=
  (multiplyOperand_iff r).2 (.inl h)

theorem multiply_eq_ok_iff (a b p : FloatRepr) :
    multiply a b = .ok p ↔ multiplyOperand a = true ∧ multiplyOperand b = true ∧ p = multiplyRecord a b := by
  unfold multiply
  cases ha : multiplyOperand a <;> cases hb : multiplyOperand b <;> cases hd : unpackDiverges a b <;> simp [eq_comm]

/-- A result of MULTIPLY on `WFX` operands composes to its own `rawBits` (R115). -/
theorem compose_multiplyRecord {a b : FloatRepr} (ha : wfx a = true) (hb : wfx b = true) :
    compose (multiplyRecord a b) = .ok (multiplyRecord a b).rawBits :=
  compose_wfx (multiplyRecord_wfx ha hb)

/-- FMUL64 answers on every pair of words (R132), and its word is the product record's own (R131). -/
theorem fmul64Ports_eq (x y : Word) :
    fmul64Ports x y = .ok
      { aBits := x, bBits := y, pBits := (multiplyRecord (decomposeWord x) (decomposeWord y)).rawBits,
        aRepr := decomposeWord x, bRepr := decomposeWord y,
        pRepr := multiplyRecord (decomposeWord x) (decomposeWord y) } := by
  have hx := wfx_of_wf (decomposeWord_wf x)
  have hy := wfx_of_wf (decomposeWord_wf y)
  unfold fmul64Ports
  rw [multiply_of_operands (multiplyOperand_of_wfx hx) (multiplyOperand_of_wfx hy)]
  simp only [compose_multiplyRecord hx hy]

end Sys2Proof.Machine
end

