-- ==== Sys2Proof/Laws/State.lean ====
section
/-! SUPPORT. One lemma per field per update of State: a presentation at one sub-block's ports changes that sub-block's
ports and nothing else. The two decomposers' ports are read through `State.decomposer`. -/

namespace Sys2Proof.Machine

@[simp] theorem State.withDecomposer_decomposer (s : State) (d d' : DecomposerId) (p : Option DecomposerPorts) :
    (s.withDecomposer d p).decomposer d' = if d' = d then p else s.decomposer d' := by
  cases d <;> cases d' <;> rfl
@[simp] theorem State.withDecomposer_recomposer (s : State) (d : DecomposerId) (p : Option DecomposerPorts) :
    (s.withDecomposer d p).recomposer = s.recomposer := by
  cases d <;> rfl
@[simp] theorem State.withDecomposer_multiplier (s : State) (d : DecomposerId) (p : Option DecomposerPorts) :
    (s.withDecomposer d p).multiplier = s.multiplier := by
  cases d <;> rfl
@[simp] theorem State.withDecomposer_top (s : State) (d : DecomposerId) (p : Option DecomposerPorts) :
    (s.withDecomposer d p).top = s.top := by
  cases d <;> rfl
@[simp] theorem State.withDecomposer_pending (s : State) (d : DecomposerId) (p : Option DecomposerPorts) :
    (s.withDecomposer d p).pending = s.pending := by
  cases d <;> rfl

/-- The two decomposers' ports are apart. -/
theorem State.withDecomposer_comm (s : State) {d d' : DecomposerId} (h : d ≠ d') (p q : Option DecomposerPorts) :
    (s.withDecomposer d p).withDecomposer d' q = (s.withDecomposer d' q).withDecomposer d p := by
  cases d <;> cases d' <;> first | rfl | exact absurd rfl h

@[simp] theorem State.setDecomposer_eq (s : State) (d : DecomposerId) (x : Word) (r : FloatRepr) :
    s.setDecomposer d x r = s.withDecomposer d (some { value := x, repr := r }) := rfl

@[simp] theorem State.setRecomposer_decomposer (s : State) (r : FloatRepr) (w : Word) (d : DecomposerId) :
    (s.setRecomposer r w).decomposer d = s.decomposer d := rfl
@[simp] theorem State.setRecomposer_recomposer (s : State) (r : FloatRepr) (w : Word) :
    (s.setRecomposer r w).recomposer = some { repr := r, value := w } := rfl
@[simp] theorem State.setRecomposer_multiplier (s : State) (r : FloatRepr) (w : Word) :
    (s.setRecomposer r w).multiplier = s.multiplier := rfl
@[simp] theorem State.setRecomposer_top (s : State) (r : FloatRepr) (w : Word) :
    (s.setRecomposer r w).top = s.top := rfl
@[simp] theorem State.setRecomposer_pending (s : State) (r : FloatRepr) (w : Word) :
    (s.setRecomposer r w).pending = s.pending := rfl

@[simp] theorem State.setMultiplier_decomposer (s : State) (a b p : FloatRepr) (d : DecomposerId) :
    (s.setMultiplier a b p).decomposer d = s.decomposer d := rfl
@[simp] theorem State.setMultiplier_recomposer (s : State) (a b p : FloatRepr) :
    (s.setMultiplier a b p).recomposer = s.recomposer := rfl
@[simp] theorem State.setMultiplier_multiplier (s : State) (a b p : FloatRepr) :
    (s.setMultiplier a b p).multiplier = some { a := a, b := b, p := p } := rfl
@[simp] theorem State.setMultiplier_top (s : State) (a b p : FloatRepr) :
    (s.setMultiplier a b p).top = s.top := rfl
@[simp] theorem State.setMultiplier_pending (s : State) (a b p : FloatRepr) :
    (s.setMultiplier a b p).pending = s.pending := rfl

@[simp] theorem State.setTop_decomposer (s : State) (t : TopPorts) (d : DecomposerId) :
    (s.setTop t).decomposer d = s.decomposer d := rfl
@[simp] theorem State.setTop_recomposer (s : State) (t : TopPorts) : (s.setTop t).recomposer = s.recomposer := rfl
@[simp] theorem State.setTop_multiplier (s : State) (t : TopPorts) : (s.setTop t).multiplier = s.multiplier := rfl
@[simp] theorem State.setTop_top (s : State) (t : TopPorts) : (s.setTop t).top = some t := rfl
@[simp] theorem State.setTop_pending (s : State) (t : TopPorts) : (s.setTop t).pending = s.pending := rfl

end Sys2Proof.Machine
end

