-- ==== Sys2Proof/Laws/Exec.lean ====
section
/-! SUPPORT. What a meaning can answer: each operation's next state and its refusals, said once, so that no later
proof unfolds exec. -/

namespace Sys2Proof.Machine

/-- The result of an instruction at the ports of its sub-block, or the reason it has none. -/
inductive Presented where
  | decomposer (d : DecomposerId) (ports : DecomposerPorts)
  | recomposer (ports : RecomposerPorts)
  | multiplier (ports : MultiplierPorts)
  | top (ports : TopPorts)
  deriving DecidableEq, Repr

/-- The state with one sub-block's ports replaced. -/
def State.present (s : State) : Presented → State
  | .decomposer d p => s.withDecomposer d (some p)
  | .recomposer p => { s with recomposer := some p }
  | .multiplier p => { s with multiplier := some p }
  | .top p => { s with top := some p }

/-- The sub-block of a result. -/
def Presented.subBlock : Presented → SubBlock
  | .decomposer d _ => .decomposer d
  | .recomposer _ => .recomposer
  | .multiplier _ => .multiplier
  | .top _ => .top

/-- A presentation leaves what the host has presented, and every other sub-block's ports, as they were. -/
@[simp] theorem State.present_pending (s : State) (p : Presented) : (s.present p).pending = s.pending := by
  cases p <;> simp [State.present]

theorem State.present_decomposer_other (s : State) {p : Presented} {d : DecomposerId}
    (h : p.subBlock ≠ .decomposer d) : (s.present p).decomposer d = s.decomposer d := by
  cases p with
  | decomposer d' ports =>
    have hd : d ≠ d' := fun e => h (congrArg SubBlock.decomposer e.symm)
    simp [State.present, hd]
  | recomposer ports => rfl
  | multiplier ports => rfl
  | top ports => rfl

theorem State.present_recomposer_other (s : State) {p : Presented} (h : p.subBlock ≠ .recomposer) :
    (s.present p).recomposer = s.recomposer := by
  cases p <;> simp_all [State.present, Presented.subBlock]

theorem State.present_multiplier_other (s : State) {p : Presented} (h : p.subBlock ≠ .multiplier) :
    (s.present p).multiplier = s.multiplier := by
  cases p <;> simp_all [State.present, Presented.subBlock]

theorem State.present_top_other (s : State) {p : Presented} (h : p.subBlock ≠ .top) :
    (s.present p).top = s.top := by
  cases p <;> simp_all [State.present, Presented.subBlock]

/-- What an instruction presents, a function of the instruction alone (R33). -/
def presentedBy (i : Instr) : Except Refusal Presented :=
  match i with
  | .decompose x => .ok (.decomposer x.unit { value := x.word, repr := decomposeWord x.word })
  | .compose r => (compose r).map fun w => .recomposer { repr := r, value := w }
  | .multiply a b => (multiply a b).map fun p => .multiplier { a := a, b := b, p := p }
  | .fmul64 x y => (fmul64Ports x y).map .top
  | .classZero sg => .ok (.decomposer sg.unit ⟨wordOf sg.sign 0#11 0#52, tableRecord .zero 0 sg.sign 0#11 0#52⟩)
  | .classSubnormal sg f =>
    if f = 0#52 then .error .operandNotInClass
    else .ok (.decomposer sg.unit ⟨wordOf sg.sign 0#11 f, tableRecord .subnormal (-1022) sg.sign 0#11 f⟩)
  | .classNormal sg e f =>
    if e = 0#11 ∨ e = 2047#11 then .error .operandNotInClass
    else .ok (.decomposer sg.unit ⟨wordOf sg.sign e f, tableRecord .normal (e.toNat - 1023) sg.sign e f⟩)
  | .classInfinity sg => .ok (.decomposer sg.unit ⟨wordOf sg.sign 2047#11 0#52, tableRecord .infinity 0 sg.sign 2047#11 0#52⟩)
  | .classNaN sg f =>
    if f = 0#52 then .error .operandNotInClass
    else .ok (.decomposer sg.unit ⟨wordOf sg.sign 2047#11 f, tableRecord .nan 0 sg.sign 2047#11 f⟩)

/-- exec is: present the instruction's result at its sub-block's ports, or refuse. -/
theorem exec_eq (i : Instr) (s : State) :
    exec i s = match presentedBy i with
      | .ok p => .next (s.present p)
      | .error r => .refused r := by
  cases i with
  | decompose x => rfl
  | compose r =>
    simp only [exec, execCompose, presentedBy]
    cases compose r <;> rfl
  | multiply a b =>
    simp only [exec, execMultiply, presentedBy]
    cases multiply a b <;> rfl
  | fmul64 x y =>
    simp only [exec, execFmul64, presentedBy]
    cases fmul64Ports x y <;> rfl
  | classZero sg => rfl
  | classSubnormal sg f =>
    simp only [exec, execClassSubnormal, presentedBy]
    split <;> rfl
  | classNormal sg e f =>
    simp only [exec, execClassNormal, presentedBy]
    split <;> rfl
  | classInfinity sg => rfl
  | classNaN sg f =>
    simp only [exec, execClassNaN, presentedBy]
    split <;> rfl

theorem presentedBy_subBlock {i : Instr} {p : Presented} (h : presentedBy i = .ok p) : p.subBlock = i.subBlock := by
  cases i with
  | decompose x => cases h; rfl
  | compose r =>
    simp only [presentedBy] at h
    cases hc : compose r <;> rw [hc] at h <;> cases h
    rfl
  | multiply a b =>
    simp only [presentedBy] at h
    cases hc : multiply a b <;> rw [hc] at h <;> cases h
    rfl
  | fmul64 x y =>
    simp only [presentedBy] at h
    cases hc : fmul64Ports x y <;> rw [hc] at h <;> cases h
    rfl
  | classZero sg => cases h; rfl
  | classSubnormal sg f =>
    simp only [presentedBy] at h
    split at h <;> cases h
    rfl
  | classNormal sg e f =>
    simp only [presentedBy] at h
    split at h <;> cases h
    rfl
  | classInfinity sg => cases h; rfl
  | classNaN sg f =>
    simp only [presentedBy] at h
    split at h <;> cases h
    rfl

/-- If exec answers a next state, it is the old one with the instruction's result presented. -/
theorem exec_next_iff (i : Instr) (s t : State) :
    exec i s = .next t ↔ ∃ p, presentedBy i = .ok p ∧ t = s.present p := by
  rw [exec_eq]
  cases presentedBy i <;> simp [eq_comm]

theorem exec_refused_iff (i : Instr) (s : State) (r : Refusal) : exec i s = .refused r ↔ presentedBy i = .error r := by
  rw [exec_eq]
  cases presentedBy i <;> simp

/-- A class row presents what DECOMPOSE presents on its word (R42, R61). -/
theorem tableRecord_eq (c : FloatClass) (e : Int) (sg : Bool) (fe : BitVec 11) (ff : BitVec 52)
    (h : classify fe ff = (c, e)) : tableRecord c e sg fe ff = decomposeWord (wordOf sg fe ff) := by
  unfold decomposeWord tableRecord
  rw [signField_wordOf, expField_wordOf, fracField_wordOf, h]

/-- A decomposer's ports always show a word and its record, class rows included. -/
theorem presentedBy_decomposer {i : Instr} {d : DecomposerId} {p : DecomposerPorts}
    (h : presentedBy i = .ok (.decomposer d p)) :
    p.repr = decomposeWord p.value := by
  cases i with
  | decompose x => cases h; rfl
  | compose r =>
    simp only [presentedBy] at h
    cases hc : compose r <;> rw [hc] at h <;> cases h
  | multiply a b =>
    simp only [presentedBy] at h
    cases hc : multiply a b <;> rw [hc] at h <;> cases h
  | fmul64 x y =>
    simp only [presentedBy] at h
    cases hc : fmul64Ports x y <;> rw [hc] at h <;> cases h
  | classZero sg =>
    cases h
    exact tableRecord_eq _ _ _ _ _ rfl
  | classSubnormal sg f =>
    simp only [presentedBy] at h
    split at h <;> cases h
    rename_i hf
    exact tableRecord_eq _ _ _ _ _ (by simp [classify, hf])
  | classNormal sg e f =>
    simp only [presentedBy] at h
    split at h <;> cases h
    rename_i he
    rw [not_or] at he
    exact tableRecord_eq _ _ _ _ _ (by simp [classify, he])
  | classInfinity sg =>
    cases h
    exact tableRecord_eq _ _ _ _ _ rfl
  | classNaN sg f =>
    simp only [presentedBy] at h
    split at h <;> cases h
    rename_i hf
    exact tableRecord_eq _ _ _ _ _ (by simp [classify, hf])

/-- The recomposer's, multiplier's and top level's ports show what the checked operations answer. -/
theorem presentedBy_recomposer {i : Instr} {p : RecomposerPorts} (h : presentedBy i = .ok (.recomposer p)) :
    compose p.repr = .ok p.value := by
  have hs := presentedBy_subBlock h
  cases i <;> simp [Presented.subBlock, Instr.subBlock] at hs
  rename_i r
  simp only [presentedBy] at h
  cases hc : compose r <;> rw [hc] at h <;> cases h
  exact hc

theorem presentedBy_multiplier {i : Instr} {p : MultiplierPorts} (h : presentedBy i = .ok (.multiplier p)) :
    multiply p.a p.b = .ok p.p := by
  have hs := presentedBy_subBlock h
  cases i <;> simp [Presented.subBlock, Instr.subBlock] at hs
  rename_i a b
  simp only [presentedBy] at h
  cases hc : multiply a b <;> rw [hc] at h <;> cases h
  exact hc

theorem presentedBy_top {i : Instr} {p : TopPorts} (h : presentedBy i = .ok (.top p)) :
    fmul64Ports p.aBits p.bBits = .ok p := by
  have hs := presentedBy_subBlock h
  cases i <;> simp [Presented.subBlock, Instr.subBlock] at hs
  simp only [presentedBy, fmul64Ports_eq] at h
  cases h
  rw [fmul64Ports_eq]

/-- One step (R47): idle with nothing presented, else the decoded instruction on the rest. -/
theorem step_cases (s : State) :
    (s.pending = [] ∧ step s = .next s) ∨
      (∃ d rest, s.pending = d :: rest ∧ decode d = .error .reservedClassCode ∧
        step s = .refused .reservedClassCode) ∨
      (∃ d rest i, s.pending = d :: rest ∧ decode d = .ok i ∧ step s = exec i { s with pending := rest }) := by
  unfold step
  cases h : s.pending with
  | nil => exact .inl ⟨rfl, rfl⟩
  | cons d rest =>
    right
    cases hd : decode d with
    | error e =>
      cases e
      exact .inl ⟨d, rest, rfl, hd, by simp [hd]⟩
    | ok i => exact .inr ⟨d, rest, i, rfl, hd, by simp [hd]⟩

/-- What every presentation keeps, whatever else is presented, every step keeps. -/
theorem step_keeps {Inv : State → Prop} (hp : ∀ s rest, Inv s → Inv { s with pending := rest })
    (he : ∀ i s p, Inv s → presentedBy i = .ok p → Inv (s.present p)) {s t : State} (hi : Inv s)
    (h : step s = .next t) : Inv t := by
  rcases step_cases s with ⟨_, h'⟩ | ⟨_, _, _, _, h'⟩ | ⟨_, rest, i, _, _, h'⟩ <;> rw [h'] at h
  · cases h
    exact hi
  · cases h
  · obtain ⟨p, hp', rfl⟩ := (exec_next_iff i _ t).1 h
    exact he i _ p (hp s rest hi) hp'

end Sys2Proof.Machine
end

