-- ==== Sys2Proof/Laws/PerInstr.lean ====
section
/-! SUPPORT. Statements made once per constructor of Instr. `EncodedPort`: the encoding of an instruction drives the
ports of the sub-block that evaluates it (30_encoding.md R47), so its selection is in the ports and not in a code. -/

namespace Sys2Proof.Laws.EncodedPort

/-- The encoding drives the instruction's own sub-block. -/
def Statement (i : Instr) : Prop := (encode i).subBlock = i.subBlock

theorem decompose (x : WordAt) : Statement (.decompose x) := rfl

theorem compose (r : FloatRepr) : Statement (.compose r) := rfl

theorem multiply (a b : FloatRepr) : Statement (.multiply a b) := rfl

theorem fmul64 (x y : Word) : Statement (.fmul64 x y) := rfl

theorem classZero (sign : SignAt) : Statement (.classZero sign) := rfl

theorem classSubnormal (sign : SignAt) (frac : BitVec 52) : Statement (.classSubnormal sign frac) := rfl

theorem classNormal (sign : SignAt) (field : BitVec 11) (frac : BitVec 52) :
    Statement (.classNormal sign field frac) := rfl

theorem classInfinity (sign : SignAt) : Statement (.classInfinity sign) := rfl

theorem classNaN (sign : SignAt) (frac : BitVec 52) : Statement (.classNaN sign frac) := rfl

end Sys2Proof.Laws.EncodedPort
end

