-- ==== Sys2Proof/Tests/Slice0.lean ====
section
/-! SUPPORT. The model's own tests: ill-formed terms refused, words and bundles written out from the spec's formats,
one step per instruction on the vectors of 95_test_vectors.md (V-…), and a witness for the hypotheses of every
statement. Expected values are the spec's. -/

namespace Sys2Proof.Tests

open Sys2Proof Sys2Proof.Machine

/-! ### Helpers -/

/-- A record in the spec's notation {class, sign, exponent, significand, rawBits}. -/
def rc (c : FloatClass) (s : Bool) (e : Int) (m : Nat) (raw : Word) : FloatRepr :=
  { rawBits := raw, sign := s, exponent := e, significand := m, cls := c }

/-- After reset, with operands presented. -/
def presented (d : Drive) : State := { State.reset with pending := [d] }

/-- The next state, if any. -/
def nextOf : Host.Outcome State Fault Refusal → Option State
  | .next s => some s
  | .fault _ => none
  | .refused _ => none

/-- The refusal, if any. -/
def refusalOf : Host.Outcome State Fault Refusal → Option Refusal
  | .next _ => none
  | .fault _ => none
  | .refused r => some r

/-- Some records of 95_test_vectors.md. -/
def zeroRepr : FloatRepr := rc .zero false 0 0 0x0000000000000000#64
def negZeroRepr : FloatRepr := rc .zero true 0 0 0x8000000000000000#64
def oneRepr : FloatRepr := rc .normal false 0 0 0x3FF0000000000000#64
def halfRepr : FloatRepr := rc .normal false (-1) 0 0x3FE0000000000000#64
def twoRepr : FloatRepr := rc .normal false 1 0 0x4000000000000000#64
def threeRepr : FloatRepr := rc .normal false 1 0x8000000000000 0x4008000000000000#64
def sixRepr : FloatRepr := rc .normal false 2 0x8000000000000 0x4018000000000000#64
def maxRepr : FloatRepr := rc .normal false 1023 0xFFFFFFFFFFFFF 0x7FEFFFFFFFFFFFFF#64
def minNormalRepr : FloatRepr := rc .normal false (-1022) 0 0x0010000000000000#64
def minSubRepr : FloatRepr := rc .subnormal false (-1022) 1 0x0000000000000001#64
def maxSubRepr : FloatRepr := rc .subnormal false (-1022) 0xFFFFFFFFFFFFF 0x000FFFFFFFFFFFFF#64
def extRepr : FloatRepr := rc .subnormal false (-1022) 0x10000000000000 0x0010000000000000#64
def infRepr : FloatRepr := rc .infinity false 0 0 0x7FF0000000000000#64
def negInfRepr : FloatRepr := rc .infinity true 0 0 0xFFF0000000000000#64
def nanARepr : FloatRepr := rc .nan false 0 0x8000000000001 0x7FF8000000000001#64
def nanBRepr : FloatRepr := rc .nan true 0 1 0xFFF0000000000001#64
/-- V-X04: class NaN, the other fields arbitrary. -/
def oddNaNRepr : FloatRepr := rc .nan true 5 0 0x1234000000000000#64
/-- V-M02's second operand. -/
def piRepr : FloatRepr := rc .normal false 1 0x921F9F01B866E 0x400921F9F01B866E#64

/-! ### WellFormed: an ill-formed term for each check -/

theorem test_illformed_exponent_low : (Instr.compose (rc .normal false (-1025) 0 0#64)).wellFormed = false := by decide
theorem test_illformed_exponent_high : (Instr.compose (rc .normal false 1024 0 0#64)).wellFormed = false := by decide
theorem test_illformed_significand : (Instr.compose (rc .zero false 0 (2 ^ 53) 0#64)).wellFormed = false := by decide
theorem test_illformed_first_operand :
    (Instr.multiply (rc .normal false 1024 0 0#64) oneRepr).wellFormed = false := by decide
theorem test_illformed_second_operand :
    (Instr.multiply oneRepr (rc .normal false 1024 0 0#64)).wellFormed = false := by decide
theorem test_illformed_subnormal : (Instr.classSubnormal ⟨.a, true⟩ 0#52).wellFormed = false := by decide
theorem test_illformed_normal_low : (Instr.classNormal ⟨.a, true⟩ 0#11 5#52).wellFormed = false := by decide
theorem test_illformed_normal_high : (Instr.classNormal ⟨.a, true⟩ 2047#11 5#52).wellFormed = false := by decide
theorem test_illformed_nan : (Instr.classNaN ⟨.a, true⟩ 0#52).wellFormed = false := by decide
/-- The widest record a bundle holds is well formed (R14). -/
theorem test_wellformed_bundle_bounds :
    (Instr.multiply (rc .nan true (-1024) (2 ^ 53 - 1) 0#64) (rc .zero true 1023 0 0#64)).wellFormed = true := by decide

/-! ### Decoding: words written out bit by bit from R40, R45 and the opcode table -/

/-- V-D04, -2.5: sign 1, field 1024, fraction 0x4000000000000 (R40). -/
theorem test_decode_decompose :
    decode (.decomposer .a 0b1100000000000100000000000000000000000000000000000000000000000000#64) =
      .ok (.decompose ⟨.a, 0xC004000000000000#64⟩) ∧
    signField 0xC004000000000000#64 = true ∧ expField 0xC004000000000000#64 = 1024#11 ∧
    fracField 0xC004000000000000#64 = 0x4000000000000#52 := by decide

/-- Class 000 Normal, sign 1, exponent 11111111110 = -2, significand 1, rawBits 0xBFD0000000000001 (R45). -/
theorem test_decode_compose :
    decode (.recomposer (0b000#3 ++ 0b1#1 ++ 0b11111111110#11 ++
      0b00000000000000000000000000000000000000000000000000001#53 ++ 0xBFD0000000000001#64)) =
      .ok (.compose (rc .normal true (-2) 1 0xBFD0000000000001#64)) := by decide

/-- First operand the extended Subnormal record (bit 52 of significand set), second Infinity with sign 1 (R45). -/
theorem test_decode_multiply :
    decode (.multiplier
      (0b001#3 ++ 0b0#1 ++ 0b10000000010#11 ++ 0b10000000000000000000000000000000000000000000000000000#53 ++
        0x0010000000000000#64)
      (0b011#3 ++ 0b1#1 ++ 0b00000000000#11 ++ 0b00000000000000000000000000000000000000000000000000000#53 ++
        0xFFF0000000000000#64)) = .ok (.multiply extRepr negInfRepr) := by decide

/-- The first 64 positions are x, the last 64 y (table row FMUL64). -/
theorem test_decode_fmul64 :
    decodeTableWord 128 0x40000000000000004008000000000000 =
      some (.fmul64 0x4000000000000000#64 0x4008000000000000#64) := by decide

/-- Codes 2 Zero and 4 NaN; 5, 6 and 7 are reserved (R14, R51). -/
theorem test_decode_class_codes :
    decode (.recomposer (0b010#3 ++ 0#129)) = .ok (.compose zeroRepr) ∧
    decode (.recomposer (0b100#3 ++ 0#129)) = .ok (.compose (rc .nan false 0 0 0#64)) ∧
    decode (.recomposer (0b101#3 ++ 0#129)) = .error .reservedClassCode ∧
    decode (.recomposer (0b110#3 ++ 0#129)) = .error .reservedClassCode ∧
    decode (.recomposer (0b111#3 ++ 0#129)) = .error .reservedClassCode := by decide

/-- The other table rows: 64, 132 (136 in whole bytes) and 264 positions, a first operand in the high bits. -/
theorem test_decode_table_words :
    decodeTableWord 64 0xC004000000000000 = some (.decompose ⟨.a, 0xC004000000000000#64⟩) ∧
    decodeTableWord 136 (4 * 2 ^ 129 + 7) = some (.compose (rc .nan false 0 0 7#64)) ∧
    decodeTableWord 264 ((3 * 2 ^ 129 + 7) * 2 ^ 132 + 2 * 2 ^ 129 + 9) =
      some (.multiply (rc .infinity false 0 0 7#64) (rc .zero false 0 0 9#64)) ∧
    decodeTableWord 136 (5 * 2 ^ 129) = none ∧
    decodeTableWord 8 1 = some (.classSubnormal ⟨.a, false⟩ 1#52) := by decide

/-- R42's classes at both ends of each: V-D02, V-D09, V-D17, V-D07, V-D06, V-D11, V-D13, V-D14. -/
theorem test_decode_class_rows :
    decode (.classifier .a 0x8000000000000000#64) = .ok (.classZero ⟨.a, true⟩) ∧
    decode (.classifier .a 0x0000000000000001#64) = .ok (.classSubnormal ⟨.a, false⟩ 1#52) ∧
    decode (.classifier .a 0x800FFFFFFFFFFFFF#64) = .ok (.classSubnormal ⟨.a, true⟩ 0xFFFFFFFFFFFFF#52) ∧
    decode (.classifier .a 0x0010000000000000#64) = .ok (.classNormal ⟨.a, false⟩ 1#11 0#52) ∧
    decode (.classifier .a 0x7FEFFFFFFFFFFFFF#64) = .ok (.classNormal ⟨.a, false⟩ 2046#11 0xFFFFFFFFFFFFF#52) ∧
    decode (.classifier .a 0xFFF0000000000000#64) = .ok (.classInfinity ⟨.a, true⟩) ∧
    decode (.classifier .a 0x7FF0000000000001#64) = .ok (.classNaN ⟨.a, false⟩ 1#52) ∧
    decode (.classifier .a 0xFFFFFFFFFFFFFFFF#64) = .ok (.classNaN ⟨.a, true⟩ 0xFFFFFFFFFFFFF#52) := by decide

/-! ### One step per instruction -/

/-- V-D04. -/
theorem test_step_decompose :
    nextOf (step (presented (.decomposer .a 0xC004000000000000#64))) = some { State.reset with
      decomposerA := some ⟨0xC004000000000000#64, rc .normal true 1 0x4000000000000 0xC004000000000000#64⟩ } := by decide

/-- V-D20, at the second decomposer. -/
theorem test_step_decompose_second :
    nextOf (step (presented (.decomposer .b 0x0008000000000000#64))) = some { State.reset with
      decomposerB := some ⟨0x0008000000000000#64,
        rc .subnormal false (-1022) 0x8000000000000 0x0008000000000000#64⟩ } := by decide

/-- V-C16: a carry into the exponent field; rawBits, here 0, is not read. -/
theorem test_step_compose_carry :
    nextOf (exec (.compose (rc .subnormal true (-1022) 0x10000000000000 0#64)) State.reset) = some { State.reset with
      recomposer := some ⟨rc .subnormal true (-1022) 0x10000000000000 0#64, 0x8010000000000000#64⟩ } := by decide

/-- V-C18 and V-C20: fields a class does not use are ignored; an exponent out of range is refused. -/
theorem test_step_compose_ignored_and_refused :
    nextOf (exec (.compose (rc .zero true 77 0x123 0#64)) State.reset) = some { State.reset with
      recomposer := some ⟨rc .zero true 77 0x123 0#64, 0x8000000000000000#64⟩ } ∧
    refusalOf (exec (.compose (rc .normal false 1024 0 0#64)) State.reset) = some .composeOutsideDomain := by decide

/-- V-M03: -2.5 x 3.14159, a tie with an odd retained value. -/
theorem test_step_multiply_tie :
    nextOf (exec (.multiply (rc .normal true 1 0x4000000000000 0xC004000000000000#64) piRepr) State.reset) =
      some { State.reset with multiplier := some ⟨rc .normal true 1 0x4000000000000 0xC004000000000000#64, piRepr,
        rc .normal true 2 0xF6A786C22680A 0xC01F6A786C22680A#64⟩ } := by decide

/-- V-X04, V-X05, V-X06. -/
theorem test_step_multiply_handbuilt :
    nextOf (exec (.multiply oddNaNRepr twoRepr) State.reset) =
      some { State.reset with multiplier := some ⟨oddNaNRepr, twoRepr, oddNaNRepr⟩ } ∧
    refusalOf (exec (.multiply (rc .subnormal false (-1022) 0 0#64) twoRepr) State.reset) = some .unpackNeverEnds ∧
    refusalOf (exec (.multiply zeroRepr (rc .normal false 0 (2 ^ 52) 0x3FF0000000000000#64)) State.reset) =
      some .multiplyOutsideDomain := by decide

/-- V-M01 with all three stages. -/
theorem test_step_fmul64 :
    nextOf (step (presented (.top 0x4000000000000000#64 0x4008000000000000#64))) = some { State.reset with
      top := some ⟨0x4000000000000000#64, 0x4008000000000000#64, 0x4018000000000000#64, twoRepr, threeRepr,
        sixRepr⟩ } := by decide

/-- V-M41: double rounding gives the word above the IEEE-754 one. -/
theorem test_step_fmul64_double_rounding :
    (nextOf (step (presented (.top 0x0010000000000001#64 0x3FE8000000000001#64)))).bind
      (fun s => s.top.map (fun p => p.pBits)) = some 0x000C000000000002#64 := by decide

/-- V-D02. -/
theorem test_step_class_zero :
    nextOf (step (presented (.classifier .a 0x8000000000000000#64))) = some { State.reset with
      decomposerA := some ⟨0x8000000000000000#64, negZeroRepr⟩ } := by decide

/-- V-D08, at the second decomposer. -/
theorem test_step_class_subnormal :
    nextOf (step (presented (.classifier .b 0x000FFFFFFFFFFFFF#64))) = some { State.reset with
      decomposerB := some ⟨0x000FFFFFFFFFFFFF#64, maxSubRepr⟩ } := by decide

/-- V-D06. -/
theorem test_step_class_normal :
    nextOf (step (presented (.classifier .a 0x7FEFFFFFFFFFFFFF#64))) = some { State.reset with
      decomposerA := some ⟨0x7FEFFFFFFFFFFFFF#64, maxRepr⟩ } := by decide

/-- V-D11. -/
theorem test_step_class_infinity :
    nextOf (step (presented (.classifier .a 0xFFF0000000000000#64))) = some { State.reset with
      decomposerA := some ⟨0xFFF0000000000000#64, negInfRepr⟩ } := by decide

/-- V-D12. -/
theorem test_step_class_nan :
    nextOf (step (presented (.classifier .a 0x7FF8000000000001#64))) = some { State.reset with
      decomposerA := some ⟨0x7FF8000000000001#64, nanARepr⟩ } := by decide

/-! ### Witnesses: a concrete case for the hypotheses of each statement, each clause at a boundary value -/

theorem witness_DecodeUndoesEncode :
    (Instr.decompose ⟨.a, 0x7FF0000000000001#64⟩).wellFormed = true ∧
    (Instr.compose (rc .nan true (-1024) (2 ^ 53 - 1) 5#64)).wellFormed = true ∧
    (Instr.multiply (rc .zero true 1023 0 5#64) extRepr).wellFormed = true ∧
    (Instr.fmul64 0#64 1#64).wellFormed = true ∧ (Instr.classZero ⟨.a, true⟩).wellFormed = true ∧
    (Instr.classSubnormal ⟨.a, false⟩ 1#52).wellFormed = true ∧ (Instr.classNormal ⟨.a, true⟩ 1#11 0#52).wellFormed = true ∧
    (Instr.classNormal ⟨.a, true⟩ 2046#11 0#52).wellFormed = true ∧ (Instr.classInfinity ⟨.a, true⟩).wellFormed = true ∧
    (Instr.classNaN ⟨.a, false⟩ 1#52).wellFormed = true := by decide

theorem witness_EncodeUndoesDecode :
    decode (.decomposer .a 1#64) = .ok (.decompose ⟨.a, 1#64⟩) ∧
    decode (.recomposer (0b010#3 ++ 0#129)) = .ok (.compose zeroRepr) ∧
    decode (.multiplier (0b010#3 ++ 0#129) (0b010#3 ++ 0#129)) = .ok (.multiply zeroRepr zeroRepr) ∧
    decode (.top 1#64 2#64) = .ok (.fmul64 1#64 2#64) ∧
    decode (.classifier .a 1#64) = .ok (.classSubnormal ⟨.a, false⟩ 1#52) := by decide

theorem witness_StepRunsTheDecodedInstruction :
    (presented (.top 1#64 2#64)).pending = [.top 1#64 2#64] ∧ decode (.top 1#64 2#64) = .ok (.fmul64 1#64 2#64) ∧
    decodeTableWord 128 (2 ^ 64 + 2) = some (.fmul64 1#64 2#64) := by decide

theorem witness_StepIdlesOrRefuses :
    State.reset.pending = [] ∧
    (presented (.recomposer (0b101#3 ++ 0#129))).pending = [.recomposer (0b101#3 ++ 0#129)] ∧
    decode (.recomposer (0b101#3 ++ 0#129)) = .error .reservedClassCode := by decide

/-- V-D01, V-D09, V-D10, V-D13, V-D07, V-D06. -/
theorem witness_DecomposeGivesTheRecord :
    (wordExp 0#64 = 0 ∧ wordFrac 0#64 = 0) ∧ (wordExp 1#64 = 0 ∧ wordFrac 1#64 ≠ 0) ∧
    (wordExp 0x7FF0000000000000#64 = 2047 ∧ wordFrac 0x7FF0000000000000#64 = 0) ∧
    (wordExp 0x7FF0000000000001#64 = 2047 ∧ wordFrac 0x7FF0000000000001#64 ≠ 0) ∧
    wordExp 0x0010000000000000#64 = 1 ∧ wordExp 0x7FEFFFFFFFFFFFFF#64 = 2046 := by decide

theorem witness_DecomposedRecordsAreWellFormed :
    (decomposeWord 0x8000000000000000#64).cls = .zero ∧ (decomposeWord 0x000FFFFFFFFFFFFF#64).cls = .subnormal ∧
    (decomposeWord 0x7FEFFFFFFFFFFFFF#64).cls = .normal ∧ (decomposeWord 0xFFF0000000000000#64).cls = .infinity ∧
    (decomposeWord 0xFFFFFFFFFFFFFFFF#64).cls = .nan := by decide

/-- Only equal words can meet the hypotheses: that is the claim. -/
theorem witness_DecomposeIsTotalAndInjective :
    (decomposeWord 1#64).sign = (decomposeWord 1#64).sign ∧
    (decomposeWord 1#64).exponent = (decomposeWord 1#64).exponent ∧
    (decomposeWord 1#64).significand = (decomposeWord 1#64).significand ∧
    (decomposeWord 1#64).cls = (decomposeWord 1#64).cls := by decide

theorem witness_WellFormedRecordsAreTheDecomposerImage : wfx extRepr = true ∧ wf extRepr = false := by decide

theorem witness_ClassRowsGiveTheTableRecords :
    (0x8000000000000000#64 : Word).toNat = true.toNat * 2 ^ 63 ∧
    (1#52 ≠ 0#52 ∧ (0x8000000000000001#64 : Word).toNat = true.toNat * 2 ^ 63 + (1#52).toNat) ∧
    (1 ≤ (2046#11).toNat ∧ (2046#11).toNat ≤ 2046 ∧
      (0x7FEFFFFFFFFFFFFF#64 : Word).toNat = false.toNat * 2 ^ 63 + (2046#11).toNat * 2 ^ 52 + (0xFFFFFFFFFFFFF#52).toNat) ∧
    (1 ≤ (1#11).toNat ∧ (0x0010000000000000#64 : Word).toNat = false.toNat * 2 ^ 63 + (1#11).toNat * 2 ^ 52 + (0#52).toNat) ∧
    (0xFFF0000000000000#64 : Word).toNat = true.toNat * 2 ^ 63 + 2047 * 2 ^ 52 ∧
    (0x7FF0000000000001#64 : Word).toNat = false.toNat * 2 ^ 63 + 2047 * 2 ^ 52 + (1#52).toNat := by decide

theorem witness_ClassRowsActAsDecompose :
    decode (.classifier .a 0x7FF0000000000001#64) = .ok (.classNaN ⟨.a, false⟩ 1#52) := by decide

theorem witness_PackAddsTheFraction : (2047 ≤ 2047 ∧ 2 ^ 52 - 1 ≤ 2 ^ 52 - 1) ∧ (0 ≤ 2047 ∧ 0 ≤ 2 ^ 52 - 1) := by
  decide

/-- V-C06, V-C07, V-C15, V-C17, V-C13, V-C12, V-C18, V-C11. -/
theorem witness_ComposePacksTheFieldsOfTheClass :
    inComposeDomain maxRepr ∧ inComposeDomain minNormalRepr ∧ inComposeDomain extRepr ∧
    inComposeDomain (rc .subnormal true 9 0 0#64) ∧ inComposeDomain (rc .nan false 0 0 0#64) ∧
    inComposeDomain (rc .nan false 7 (2 ^ 52 - 1) 0#64) ∧ inComposeDomain (rc .zero true 77 0x123 0#64) ∧
    inComposeDomain negInfRepr := by
  refine ⟨?_, ?_, ?_, ?_, ?_, ?_, ?_, ?_⟩ <;> unfold inComposeDomain <;> decide

/-- V-C20, V-C21, and the first value outside for each other class. -/
theorem witness_ComposeCompletesExactlyOnItsDomain :
    ¬ inComposeDomain (rc .normal false 1024 0 0#64) ∧ ¬ inComposeDomain (rc .normal false (-1023) 0 0#64) ∧
    ¬ inComposeDomain (rc .normal false 0 (2 ^ 52) 0#64) ∧ ¬ inComposeDomain (rc .subnormal false 0 (2 ^ 52 + 1) 0#64) ∧
    ¬ inComposeDomain (rc .nan false 0 (2 ^ 52) 0#64) ∧ wfx extRepr = true ∧ wfx negInfRepr = true := by
  unfold inComposeDomain
  decide

theorem witness_ComposeRepairsAnEmptyNaN :
    (rc .nan true 0 0 0#64).cls = .nan ∧ (rc .nan true 0 0 0#64).significand = 0 := by decide

/-- Two Subnormal records, and two Zero records, that differ only in the fields COMPOSE does not read. -/
theorem witness_ComposeReadsOnlyTheFieldsOfItsClass :
    exec (.compose (rc .subnormal true 3 1 5#64)) State.reset = .next { State.reset with
      recomposer := some { repr := rc .subnormal true 3 1 5#64, value := 0x8000000000000001#64 } } ∧
    (rc .subnormal true 3 1 5#64).significand = (rc .subnormal true (-1022) 1 7#64).significand ∧
    exec (.compose negZeroRepr) State.reset = .next { State.reset with
      recomposer := some { repr := negZeroRepr, value := 0x8000000000000000#64 } } ∧
    negZeroRepr.cls = (rc .zero true 77 0x123 0#64).cls ∧ negZeroRepr.sign = (rc .zero true 77 0x123 0#64).sign :=
  ⟨rfl, rfl, rfl, rfl, rfl⟩

theorem witness_RecordRoundTrip :
    (inComposeDomain sixRepr ∧ wf sixRepr = true) ∧ (inComposeDomain extRepr ∧ wf extRepr = false) := by
  unfold inComposeDomain
  decide

theorem witness_ExtendedRecordComposesToTheSmallestNormal :
    extRepr.cls = .subnormal ∧ extRepr.significand = 2 ^ 52 ∧ extendedSubnormal extRepr = true := by decide

/-- V-X06 and V-X05. -/
theorem witness_MultiplyCompletesExactlyOnItsDomain :
    ¬ ((wfx zeroRepr = true ∨ zeroRepr.cls = .nan) ∧
      (wfx (rc .normal false 0 (2 ^ 52) 0x3FF0000000000000#64) = true ∨
        (rc .normal false 0 (2 ^ 52) 0x3FF0000000000000#64).cls = .nan)) ∧
    wfx oddNaNRepr = false ∧ oddNaNRepr.cls = .nan ∧ wfx extRepr = true ∧
    exec (.multiply (rc .subnormal false (-1022) 0 0#64) twoRepr) State.reset = .refused .unpackNeverEnds :=
  ⟨by decide, by decide, by decide, by decide, rfl⟩

/-- V-X04 and V-S02. -/
theorem witness_NaNOperandIsReturnedUnchanged :
    (wfx twoRepr = true ∧ oddNaNRepr.cls = .nan) ∧ (twoRepr.cls ≠ .nan ∧ nanBRepr.cls = .nan) := by decide

/-- V-S08 and V-S10. -/
theorem witness_InfinityTimesZeroGivesTheInvalidNaN :
    wfx infRepr = true ∧ wfx zeroRepr = true ∧ wfx negInfRepr = true ∧
    infRepr.cls = .infinity ∧ zeroRepr.cls = .zero ∧ negInfRepr.cls = .infinity := by decide

/-- V-S13 and V-S14. -/
theorem witness_InfinityOperandGivesInfinity :
    (wfx negInfRepr = true ∧ negInfRepr.cls = .infinity ∧ negInfRepr.cls ≠ .nan ∧ negInfRepr.cls ≠ .zero) ∧
    (wfx minSubRepr = true ∧ minSubRepr.cls ≠ .nan ∧ minSubRepr.cls ≠ .zero) := by decide

/-- V-S17 and V-S18. -/
theorem witness_ZeroOperandGivesZero :
    (wfx negZeroRepr = true ∧ negZeroRepr.cls = .zero ∧ negZeroRepr.cls ≠ .nan ∧ negZeroRepr.cls ≠ .infinity) ∧
    (wfx zeroRepr = true ∧ wfx minSubRepr = true ∧ minSubRepr.cls ≠ .nan ∧ minSubRepr.cls ≠ .infinity) := by decide

theorem witness_ResultClassAndSignTable :
    wfx zeroRepr = true ∧ wfx infRepr = true ∧ wfx twoRepr = true ∧ zeroRepr.cls ≠ .nan ∧ infRepr.cls ≠ .nan ∧
    (infRepr.cls = .infinity ∧ twoRepr.cls ≠ .zero) ∧ (zeroRepr.cls = .zero ∧ twoRepr.cls ≠ .infinity) := by decide

/-- V-M3E, where the result is not WF, and V-M01. -/
theorem witness_ProductsStayWellFormed :
    (wfx (rc .normal false 0 0xFFFFFFFFFFFFF 0x3FFFFFFFFFFFFFFF#64) = true ∧
      wfx (rc .subnormal false (-1022) 0x8000000000000 0x0008000000000000#64) = true ∧
      (roundedProductOf (rc .normal false 0 0xFFFFFFFFFFFFF 0x3FFFFFFFFFFFFFFF#64)
        (rc .subnormal false (-1022) 0x8000000000000 0x0008000000000000#64)) = { sig := 2 ^ 53 - 1, exp := -1023 }) ∧
    wfx twoRepr = true ∧ wfx threeRepr = true := by decide

/-- V-S03 and V-S05. -/
theorem witness_MultiplicationCommutes :
    wfx nanARepr = true ∧ wfx nanBRepr = true ∧ wfx twoRepr = true ∧ nanARepr.cls = .nan ∧ nanBRepr.cls = .nan ∧
    twoRepr.cls ≠ .nan ∧ ¬ (twoRepr.cls = .nan ∧ threeRepr.cls = .nan) := by decide

theorem witness_UnpackingFollowsTheClass :
    (wfx maxRepr = true ∧ maxRepr.cls = .normal) ∧ (wfx extRepr = true ∧ extRepr.cls = .subnormal) ∧
    (wfx minSubRepr = true ∧ minSubRepr.cls = .subnormal) := by decide

/-- V-M06 (below 2^105), V-M14 (rounding overflow), V-M07 (the largest product). -/
theorem witness_FirstRoundingFollowsTheRules :
    (wfx (rc .normal false 0 1 0x3FF0000000000001#64) = true ∧
      productOf (rc .normal false 0 1 0x3FF0000000000001#64) (rc .normal false 0 1 0x3FF0000000000001#64) < 2 ^ 105) ∧
    (wfx (rc .normal false 0 0x8000000000000 0x3FF8000000000000#64) = true ∧
      wfx (rc .normal false 0 0x5555555555555 0x3FF5555555555555#64) = true ∧
      (rneShift (productOf (rc .normal false 0 0x8000000000000 0x3FF8000000000000#64)
        (rc .normal false 0 0x5555555555555 0x3FF5555555555555#64)) 52).rounded = 2 ^ 53) ∧
    (wfx (rc .normal false 0 0xFFFFFFFFFFFFF 0x3FFFFFFFFFFFFFFF#64) = true ∧
      productOf (rc .normal false 0 0xFFFFFFFFFFFFF 0x3FFFFFFFFFFFFFFF#64)
        (rc .normal false 0 0xFFFFFFFFFFFFF 0x3FFFFFFFFFFFFFFF#64) = 2 ^ 106 - 2 ^ 54 + 1) := by decide

/-- V-M38 (the smallest candidate field), V-M20 (the largest, and P[105] = 1). -/
theorem witness_NumericIntermediatesKeepTheirRanges :
    (wfx minSubRepr = true ∧ minSubRepr.cls = .subnormal ∧
      candidateField (roundedProductOf minSubRepr minSubRepr).exp = -1125) ∧
    (wfx maxRepr = true ∧ maxRepr.cls = .normal ∧ candidateField (roundedProductOf maxRepr maxRepr).exp = 3070 ∧
      (productOf maxRepr maxRepr).testBit 105 = true) := by
  decide

/-- V-M22: candidate field exactly 2047. -/
theorem witness_OverflowGivesInfinity :
    wfx maxRepr = true ∧ wfx twoRepr = true ∧ maxRepr.cls = .normal ∧ twoRepr.cls = .normal ∧
    (roundedProductOf maxRepr twoRepr).exp + 1023 = 2047 := by decide

/-- V-M23 (candidate field 2046) and V-M44 (1). -/
theorem witness_InRangeProductIsNormal :
    (wfx (rc .normal false 1023 0 0x7FE0000000000000#64) = true ∧
      (roundedProductOf (rc .normal false 1023 0 0x7FE0000000000000#64)
        (rc .normal false 0 0xFFFFFFFFFFFFF 0x3FFFFFFFFFFFFFFF#64)).exp + 1023 = 2046) ∧
    (wfx (rc .normal false (-1022) 0x8000000000000 0x0018000000000000#64) = true ∧
      wfx (rc .normal false (-1) 0x5555555555555 0x3FE5555555555555#64) = true ∧
      (roundedProductOf (rc .normal false (-1022) 0x8000000000000 0x0018000000000000#64)
        (rc .normal false (-1) 0x5555555555555 0x3FE5555555555555#64)).exp + 1023 = 1) := by decide

/-- V-M30 (k = 1), V-M32 (52), V-M33 and V-M34 (53), V-M37 (54), V-M38 (1126). -/
theorem witness_UnderflowRoundsASecondTime :
    (wfx minNormalRepr = true ∧ wfx halfRepr = true ∧
      ((1 : Nat) : Int) = 1 - ((roundedProductOf minNormalRepr halfRepr).exp + 1023)) ∧
    (wfx oneRepr = true ∧ wfx minSubRepr = true ∧
      ((52 : Nat) : Int) = 1 - ((roundedProductOf oneRepr minSubRepr).exp + 1023)) ∧
    (((53 : Nat) : Int) = 1 - ((roundedProductOf minSubRepr halfRepr).exp + 1023) ∧
      (roundedProductOf minSubRepr halfRepr).sig = 2 ^ 52) ∧
    (wfx (rc .normal false (-1) 0x8000000000000 0x3FE8000000000000#64) = true ∧
      ((53 : Nat) : Int) =
        1 - ((roundedProductOf minSubRepr (rc .normal false (-1) 0x8000000000000 0x3FE8000000000000#64)).exp + 1023) ∧
      2 ^ 52 < (roundedProductOf minSubRepr (rc .normal false (-1) 0x8000000000000 0x3FE8000000000000#64)).sig) ∧
    (wfx (rc .normal false (-2) 0 0x3FD0000000000000#64) = true ∧
      ((54 : Nat) : Int) = 1 - ((roundedProductOf minSubRepr (rc .normal false (-2) 0 0x3FD0000000000000#64)).exp + 1023)) ∧
    ((1126 : Nat) : Int) = 1 - ((roundedProductOf minSubRepr minSubRepr).exp + 1023) := by decide

/-- V-M3E in the corner, V-M30 just outside it. -/
theorem witness_UnderflowCornerGivesTheExtendedRecord :
    (multiplyRecord (rc .normal false 0 0xFFFFFFFFFFFFF 0x3FFFFFFFFFFFFFFF#64)
      (rc .subnormal false (-1022) 0x8000000000000 0x0008000000000000#64) = extRepr) ∧
    (roundedProductOf (rc .normal false 0 0xFFFFFFFFFFFFF 0x3FFFFFFFFFFFFFFF#64)
      (rc .subnormal false (-1022) 0x8000000000000 0x0008000000000000#64)).exp + 1023 ≤ 0 ∧
    (roundedProductOf minNormalRepr halfRepr).exp + 1023 ≤ 0 := by decide

theorem witness_ProductsComposeToTheirRawBits : wfx extRepr = true ∧ wfx nanBRepr = true := by decide

theorem witness_ExactProductAsARational :
    wfx extRepr = true ∧ extRepr.cls = .subnormal ∧ wfx maxRepr = true ∧ maxRepr.cls = .normal := by decide

/-- V-M10, a tie, with the neighbour on the other side of it. -/
theorem witness_NormalResultIsTheNearestDouble :
    (exec (.multiply (rc .normal false 0 1 0x3FF0000000000001#64)
        (rc .normal false 0 0x8000000000000 0x3FF8000000000000#64)) State.reset = .next { State.reset with
          multiplier := some { a := rc .normal false 0 1 0x3FF0000000000001#64,
                               b := rc .normal false 0 0x8000000000000 0x3FF8000000000000#64,
                               p := rc .normal false 0 0x8000000000002 0x3FF8000000000002#64 } }) ∧
    wf (rc .normal false 0 0x8000000000001 0x3FF8000000000001#64) = true ∧
    isFinite (rc .normal false 0 0x8000000000001 0x3FF8000000000001#64) ∧
    |realValue (rc .normal false 0 0x8000000000002 0x3FF8000000000002#64) -
        realValue (rc .normal false 0 1 0x3FF0000000000001#64) *
          realValue (rc .normal false 0 0x8000000000000 0x3FF8000000000000#64)| =
      |realValue (rc .normal false 0 0x8000000000001 0x3FF8000000000001#64) -
        realValue (rc .normal false 0 1 0x3FF0000000000001#64) *
          realValue (rc .normal false 0 0x8000000000000 0x3FF8000000000000#64)| := by
  refine ⟨rfl, by decide, .inr (.inr rfl), ?_⟩
  norm_num [realValue, magnitude, rc, abs_div]

/-- V-M25 (the threshold itself: the exact magnitude is 2^1024 - 2^970), V-M24 (just over) and V-M23 (the largest finite
result). -/
theorem witness_OverflowThreshold :
    (wfx (rc .normal false 1023 0x8000000000000 0x7FE8000000000000#64) = true ∧
      wfx (rc .normal false 0 0x5555555555555 0x3FF5555555555555#64) = true ∧
      |realValue (rc .normal false 1023 0x8000000000000 0x7FE8000000000000#64) *
          realValue (rc .normal false 0 0x5555555555555 0x3FF5555555555555#64)| =
        (2 : ℚ) ^ (1024 : Nat) - 2 ^ (970 : Nat) ∧
      exec (.multiply (rc .normal false 1023 0x8000000000000 0x7FE8000000000000#64)
        (rc .normal false 0 0x5555555555555 0x3FF5555555555555#64)) State.reset = .next { State.reset with
          multiplier := some { a := rc .normal false 1023 0x8000000000000 0x7FE8000000000000#64,
                               b := rc .normal false 0 0x5555555555555 0x3FF5555555555555#64, p := infRepr } }) ∧
    (wfx maxRepr = true ∧ wfx (rc .normal false 0 1 0x3FF0000000000001#64) = true ∧
      exec (.multiply maxRepr (rc .normal false 0 1 0x3FF0000000000001#64)) State.reset = .next { State.reset with
        multiplier := some { a := maxRepr, b := rc .normal false 0 1 0x3FF0000000000001#64, p := infRepr } }) ∧
    (wfx (rc .normal false 1023 0 0x7FE0000000000000#64) = true ∧
      wfx (rc .normal false 0 0xFFFFFFFFFFFFF 0x3FFFFFFFFFFFFFFF#64) = true ∧
      exec (.multiply (rc .normal false 1023 0 0x7FE0000000000000#64)
        (rc .normal false 0 0xFFFFFFFFFFFFF 0x3FFFFFFFFFFFFFFF#64)) State.reset = .next { State.reset with
        multiplier := some { a := rc .normal false 1023 0 0x7FE0000000000000#64,
                             b := rc .normal false 0 0xFFFFFFFFFFFFF 0x3FFFFFFFFFFFFFFF#64, p := maxRepr } }) := by
  refine ⟨⟨by decide, by decide, ?_, rfl⟩, ⟨by decide, by decide, rfl⟩, by decide, by decide, rfl⟩
  norm_num [realValue, magnitude, rc]
  rw [show (2 : ℚ) ^ 1024 = 2 ^ 54 * 2 ^ 970 by rw [← pow_add], show (2 : ℚ) ^ 971 = 2 * 2 ^ 970 by rw [← pow_succ']]
  generalize (2 : ℚ) ^ 970 = u
  ring

/-- V-M40's and V-M41's operands. -/
def tieRepr : FloatRepr := rc .normal false (-1022) 1 0x0010000000000001#64
def tieDownRepr : FloatRepr := rc .normal false (-2) 1 0x3FD0000000000001#64
def tieUpRepr : FloatRepr := rc .normal false (-1) 0x8000000000001 0x3FE8000000000001#64

/-- V-M40 (not up, T0 even) and V-M41 (up, T0 odd), every hypothesis met, with the IEEE-754 significands
95_test_vectors.md gives. -/
theorem witness_DoubleRoundingDiffersExactlyAtInexactTies :
    (wfx tieRepr = true ∧ wfx tieDownRepr = true ∧ tieRepr.cls = .normal ∧ tieDownRepr.cls = .normal ∧
      ((2 : Nat) : Int) = 1 - ((roundedProductOf tieRepr tieDownRepr).exp + 1023) ∧
      NearestEven (productOf tieRepr tieDownRepr) (-970 - exponentOf tieRepr tieDownRepr).toNat 0x4000000000001 ∧
      exec (.multiply tieRepr tieDownRepr) State.reset = .next { State.reset with
        multiplier := some { a := tieRepr, b := tieDownRepr,
                             p := rc .subnormal false (-1022) 0x4000000000000 0x0004000000000000#64 } }) ∧
    (wfx tieUpRepr = true ∧ tieUpRepr.cls = .normal ∧
      ((1 : Nat) : Int) = 1 - ((roundedProductOf tieRepr tieUpRepr).exp + 1023) ∧
      NearestEven (productOf tieRepr tieUpRepr) (-970 - exponentOf tieRepr tieUpRepr).toNat 0xC000000000001 ∧
      exec (.multiply tieRepr tieUpRepr) State.reset = .next { State.reset with
        multiplier := some { a := tieRepr, b := tieUpRepr,
                             p := rc .subnormal false (-1022) 0xC000000000002 0x000C000000000002#64 } }) := by
  refine ⟨⟨by decide, by decide, by decide, by decide, by decide, ?_, rfl⟩, by decide, by decide, by decide, ?_, rfl⟩ <;>
    unfold NearestEven <;> decide

/-- V-S01, V-S02, V-S08, V-S09, V-S13, V-S14, V-S17, V-S18, V-M43. -/
theorem witness_FmulResultByOperandClass :
    isNaNWord 0x7FF8000000000001#64 ∧ (¬ isNaNWord 0x4014000000000000#64 ∧ isNaNWord 0xFFF0000000000001#64) ∧
    (isInfinityWord 0x7FF0000000000000#64 ∧ isZeroWord 0x0000000000000000#64) ∧
    (isZeroWord 0x8000000000000000#64 ∧ isInfinityWord 0x7FF0000000000000#64) ∧
    (isInfinityWord 0xFFF0000000000000#64 ∧ ¬ isNaNWord 0xFFF0000000000000#64 ∧ ¬ isZeroWord 0xFFF0000000000000#64) ∧
    (isZeroWord 0x8000000000000000#64 ∧ ¬ isNaNWord 0x8000000000000000#64 ∧ ¬ isInfinityWord 0x8000000000000000#64) ∧
    (isSubnormalWord 0x0000000000000001#64 ∧ isNormalWord 0x7FEFFFFFFFFFFFFF#64) := by
  unfold isNaNWord isInfinityWord isZeroWord isSubnormalWord isNormalWord
  decide

/-- V-S05 (one NaN), and a NaN with itself. -/
theorem witness_FmulCommutesUnlessTwoNaNs :
    ¬ (isNaNWord 0xC014000000000000#64 ∧ isNaNWord 0x7FF8000000000001#64 ∧
      (0xC014000000000000#64 : Word) ≠ 0x7FF8000000000001#64) ∧
    ¬ (isNaNWord 0x7FF8000000000001#64 ∧ isNaNWord 0x7FF8000000000001#64 ∧
      (0x7FF8000000000001#64 : Word) ≠ 0x7FF8000000000001#64) := by
  unfold isNaNWord
  decide

theorem witness_FlippingAnOperandSignFlipsTheResultSign :
    ¬ isNaNWord 0x7FF0000000000000#64 ∧ ¬ isNaNWord 0x0000000000000000#64 := by
  unfold isNaNWord
  decide

/-- V-M32's operands, exchanged, and the extended record of V-X01. -/
theorem witness_PowerOfTwoFirstRoundingIsExact :
    wfx minSubRepr = true ∧ wf oneRepr = true ∧ minSubRepr.cls = .subnormal ∧ oneRepr.cls = .normal ∧
    oneRepr.significand = 0 ∧ wfx extRepr = true ∧ extRepr.cls = .subnormal := by decide

/-- A state with every port group driven: V-D03, V-D19, V-C02, V-M01 and V-S16. -/
def driven (pending : List Drive) : State :=
  { decomposerA := some { value := 0x3FF0000000000000#64, repr := oneRepr },
    decomposerB := some { value := 0x3FE0000000000000#64, repr := halfRepr },
    recomposer := some { repr := negZeroRepr, value := 0x8000000000000000#64 },
    multiplier := some { a := twoRepr, b := threeRepr, p := sixRepr },
    top := some { aBits := 0#64, bBits := 0xC014000000000000#64, pBits := 0x8000000000000000#64, aRepr := zeroRepr,
                  bRepr := rc .normal true 2 0x4000000000000 0xC014000000000000#64, pRepr := negZeroRepr },
    pending := pending }

/-- An instruction of each sub-block completes in a state where the other ports are driven. -/
theorem witness_EvaluationChangesOnlyItsOwnPorts :
    exec (.decompose ⟨.a, 0#64⟩) (driven []) = .next { driven [] with
      decomposerA := some { value := 0#64, repr := zeroRepr } } ∧
    exec (.decompose ⟨.b, 0#64⟩) (driven []) = .next { driven [] with
      decomposerB := some { value := 0#64, repr := zeroRepr } } ∧
    exec (.compose zeroRepr) (driven []) = .next { driven [] with
      recomposer := some { repr := zeroRepr, value := 0#64 } } ∧
    exec (.multiply oneRepr twoRepr) (driven []) = .next { driven [] with
      multiplier := some { a := oneRepr, b := twoRepr, p := twoRepr } } ∧
    exec (.fmul64 0#64 0#64) (driven []) = .next { driven [] with
      top := some { aBits := 0#64, bBits := 0#64, pBits := 0#64, aRepr := zeroRepr, bRepr := zeroRepr,
                    pRepr := zeroRepr } } :=
  ⟨rfl, rfl, rfl, rfl, rfl⟩

theorem witness_EvaluationDependsOnOperandsAlone :
    exec (.decompose ⟨.a, 0#64⟩) State.reset = .next { State.reset with
      decomposerA := some { value := 0#64, repr := zeroRepr } } ∧
    exec (.compose (rc .normal false 1024 0 0#64)) State.reset = .refused .composeOutsideDomain := ⟨rfl, rfl⟩

theorem witness_IndependentEvaluationsCommute :
    (Instr.decompose ⟨.a, 0#64⟩).subBlock ≠ (Instr.decompose ⟨.b, 0#64⟩).subBlock ∧
    (Instr.decompose ⟨.a, 0#64⟩).subBlock ≠ (Instr.compose zeroRepr).subBlock ∧
    exec (.decompose ⟨.a, 0#64⟩) (driven []) = .next { driven [] with
      decomposerA := some { value := 0#64, repr := zeroRepr } } ∧
    exec (.decompose ⟨.b, 0#64⟩) (driven []) = .next { driven [] with
      decomposerB := some { value := 0#64, repr := zeroRepr } } ∧
    exec (.compose zeroRepr) (driven []) = .next { driven [] with
      recomposer := some { repr := zeroRepr, value := 0#64 } } := ⟨by decide, by decide, rfl, rfl, rfl⟩

theorem witness_OnlyIllFormedOperandsAreRefused :
    exec (.compose (rc .normal false 1024 0 0#64)) State.reset = .refused .composeOutsideDomain ∧
    exec (.multiply zeroRepr (rc .normal false 0 (2 ^ 52) 0#64)) State.reset = .refused .multiplyOutsideDomain ∧
    exec (.multiply (rc .subnormal false (-1022) 0 0#64) twoRepr) State.reset = .refused .unpackNeverEnds ∧
    exec (.classNaN ⟨.a, true⟩ 0#52) State.reset = .refused .operandNotInClass := ⟨rfl, rfl, rfl, rfl⟩

theorem witness_StepKeepsOutputsFollowingInputs :
    portsFollow (driven [.decomposer .a 0#64]) ∧
    step (driven [.decomposer .a 0#64]) = .next { driven [] with
      decomposerA := some { value := 0#64, repr := zeroRepr } } := by
  refine ⟨⟨fun d p h => ?_, fun p h => ?_, fun p h => ?_, fun p h => ?_⟩, rfl⟩ <;> (try cases d) <;> cases h <;> decide

theorem witness_StepKeepsRecordsConsistent :
    recordsConsistent (driven [.decomposer .a 0#64]) ∧
    step (driven [.decomposer .a 0#64]) = .next { driven [] with
      decomposerA := some { value := 0#64, repr := zeroRepr } } := by
  refine ⟨⟨fun d p h => ?_, fun p h => ?_, fun p h => ?_, fun p h => ?_⟩, rfl⟩ <;> (try cases d) <;> cases h <;>
    (try unfold inComposeDomain) <;> decide

end Sys2Proof.Tests
end

section
/-! The obligations of the state family: the round trip of the encoding (30_encoding.md R40, R45), well-formed records
(10_state.md R17, R18), and what a step changes and keeps at the ports (R10, R15, R32). -/

namespace Sys2Proof.Machine

/-! ### The classification of R60, one equation per row -/

@[simp] theorem classify_zero : classify 0#11 0#52 = (.zero, 0) := rfl

theorem classify_subnormal {f : BitVec 52} (h : f ≠ 0#52) : classify 0#11 f = (.subnormal, -1022) := by
  simp [classify, h]

@[simp] theorem classify_infinity : classify 2047#11 0#52 = (.infinity, 0) := rfl

theorem classify_nan {f : BitVec 52} (h : f ≠ 0#52) : classify 2047#11 f = (.nan, 0) := by
  simp [classify, h]

theorem classify_normal {e : BitVec 11} (f : BitVec 52) (h0 : e ≠ 0#11) (h1 : e ≠ 2047#11) :
    classify e f = (.normal, (e.toNat : Int) - 1023) := by
  simp [classify, h0, h1]

/-- The class rows read a word as the classification reads its fields. -/
theorem classOfWord_wordOf (s : Bool) (e : BitVec 11) (f : BitVec 52) :
    classOfWord (wordOf s e f) = (classify e f).1 := by
  rw [← decomposeWord_cls]
  simp [decomposeWord, expField_wordOf, fracField_wordOf]

/-! ### Decoder and encoder (R14, R40, R45, R51) -/

/-- The decoder rejects a pair of bundles when it rejects either of them. -/
theorem decode_multiplier_eq_error_iff (wa wb : Bundle) (e : DecodeError) :
    decode (.multiplier wa wb) = .error e ↔ reprOf wa = .error e ∨ reprOf wb = .error e := by
  cases e
  cases ha : reprOf wa <;> cases hb : reprOf wb <;> simp [decode, ha, hb]

theorem decode_recomposer_eq_error_iff (w : Bundle) (e : DecodeError) :
    decode (.recomposer w) = .error e ↔ reprOf w = .error e := by
  cases hw : reprOf w <;> simp [decode, hw]

/-- The class-row instruction of a class, from the fields of a word. -/
def classRowInstr (c : FloatClass) (s : SignAt) (e : BitVec 11) (f : BitVec 52) : Instr :=
  match c with
  | .zero => .classZero s
  | .subnormal => .classSubnormal s f
  | .normal => .classNormal s e f
  | .infinity => .classInfinity s
  | .nan => .classNaN s f

/-- The classifier reads a word as the class row that its fields are classified into. -/
theorem decode_classifier_wordOf {s : SignAt} {e : BitVec 11} {f : BitVec 52} {c : FloatClass} {k : Int}
    (hc : classify e f = (c, k)) :
    decode (.classifier s.unit (wordOf s.sign e f)) = .ok (classRowInstr c s e f) := by
  have hw : classOfWord (wordOf s.sign e f) = c := by rw [classOfWord_wordOf, hc]
  cases c <;>
    simp [decode, classInstrOf, classRowInstr, hw, signField_wordOf, expField_wordOf, fracField_wordOf]

/-- Settles O1: the operand bundles by `reprOf_bundleOf`, the class rows by the classification of their word. -/
theorem decodeUndoesEncode : Obligations.DecodeUndoesEncode := by
  intro i h
  cases i with
  | decompose x => rfl
  | compose r => simp [encode, decode, reprOf_bundleOf h]
  | multiply a b =>
    obtain ⟨ha, hb⟩ : a.fits = true ∧ b.fits = true := by simpa [Instr.wellFormed] using h
    simp [encode, decode, reprOf_bundleOf ha, reprOf_bundleOf hb]
  | fmul64 x y => rfl
  | classZero s => exact decode_classifier_wordOf classify_zero
  | classSubnormal s f =>
    have hf : f ≠ 0#52 := by simpa [Instr.wellFormed] using h
    exact decode_classifier_wordOf (classify_subnormal hf)
  | classNormal s e f =>
    obtain ⟨h0, h1⟩ : e ≠ 0#11 ∧ e ≠ 2047#11 := by simpa [Instr.wellFormed] using h
    exact decode_classifier_wordOf (classify_normal f h0 h1)
  | classInfinity s => exact decode_classifier_wordOf classify_infinity
  | classNaN s f =>
    have hf : f ≠ 0#52 := by simpa [Instr.wellFormed] using h
    exact decode_classifier_wordOf (classify_nan hf)

/-- Settles O3: only the drives that carry a bundle can be rejected, and a bundle is rejected by its class code. -/
theorem onlyReservedClassCodesAreRejected : Obligations.OnlyReservedClassCodesAreRejected := by
  intro d
  cases d with
  | decomposer d x => simp [decode]
  | recomposer w => simp [decode_recomposer_eq_error_iff, reprOf_eq_error_iff]
  | multiplier wa wb => simp [decode_multiplier_eq_error_iff, reprOf_eq_error_iff]
  | top x y => simp [decode]
  | classifier d x => simp [decode]

/-! ### Well-formed records (R17, R18) -/

/-- WF is the image of DECOMPOSE. -/
theorem wf_iff_exists_decomposeWord (r : FloatRepr) : wf r = true ↔ ∃ x : Word, r = decomposeWord x := by
  constructor
  · intro h
    exact ⟨r.rawBits, (decomposeWord_rawBits h).symm⟩
  · rintro ⟨x, rfl⟩
    exact decomposeWord_wf x

/-- The carry of a fraction of 2^52 makes the word of the smallest normal (D8). -/
theorem pack_carry (s : Bool) : pack s 0 (2 ^ 52) = wordOf s 1#11 0#52 := by
  rw [wordOf_eq_pack]
  simp [pack]

/-- The word of the extended record, as a number. -/
theorem eq_pack_carry_iff (x : Word) (s : Bool) :
    x = pack s 0 (2 ^ 52) ↔ x.toNat = s.toNat * 2 ^ 63 + 2 ^ 52 := by
  rw [← BitVec.toNat_inj, pack_toNat s (by decide), Nat.zero_mul, Nat.add_zero]

theorem decomposeWord_smallestNormal (s : Bool) :
    decomposeWord (wordOf s 1#11 0#52) =
      { rawBits := wordOf s 1#11 0#52, sign := s, exponent := -1022, significand := 0, cls := .normal } := by
  simp [decomposeWord, signField_wordOf, expField_wordOf, fracField_wordOf, classify]

/-- Settles O12: WF by the round trip through the record's word, WFX by the one extended record of each sign. -/
theorem wellFormedRecordsAreTheDecomposerImage : Obligations.WellFormedRecordsAreTheDecomposerImage := by
  refine ⟨wf_iff_exists_decomposeWord, fun r => ?_, fun r hx hw => ?_⟩
  · rw [wfx_iff, extendedSubnormal_iff, eq_pack_carry_iff]
  · have he : extendedSubnormal r = true := by simpa [wfx, hw] using hx
    obtain ⟨_, _, _, hraw⟩ := (extendedSubnormal_iff r).1 he
    rw [hraw, pack_carry, decomposeWord_smallestNormal]
    exact ⟨rfl, rfl, rfl⟩

/-! ### What a presentation changes (R10, R15, R22) -/

/-- Settles O52: what exec answers is a presentation at the ports of the instruction's sub-block. -/
theorem evaluationChangesOnlyItsOwnPorts : Obligations.EvaluationChangesOnlyItsOwnPorts := by
  intro i s t h
  obtain ⟨p, hp, rfl⟩ := (exec_next_iff i s t).1 h
  rw [← presentedBy_subBlock hp]
  exact ⟨s.present_pending p, fun _ => s.present_decomposer_other, s.present_recomposer_other,
    s.present_multiplier_other, s.present_top_other⟩

/-! What stands at a port group after a presentation is what was presented there, or stood there before. -/

theorem State.present_decomposer_cases {s : State} {p : Presented} {d : DecomposerId} {q : DecomposerPorts}
    (h : (s.present p).decomposer d = some q) : p = .decomposer d q ∨ s.decomposer d = some q := by
  by_cases hp : p.subBlock = .decomposer d
  · cases p <;> cases hp
    simp_all [State.present]
  · exact .inr (s.present_decomposer_other hp ▸ h)

theorem State.present_recomposer_cases {s : State} {p : Presented} {q : RecomposerPorts}
    (h : (s.present p).recomposer = some q) : p = .recomposer q ∨ s.recomposer = some q := by
  cases p <;> simp_all [State.present]

theorem State.present_multiplier_cases {s : State} {p : Presented} {q : MultiplierPorts}
    (h : (s.present p).multiplier = some q) : p = .multiplier q ∨ s.multiplier = some q := by
  cases p <;> simp_all [State.present]

theorem State.present_top_cases {s : State} {p : Presented} {q : TopPorts}
    (h : (s.present p).top = some q) : p = .top q ∨ s.top = some q := by
  cases p <;> simp_all [State.present]

/-! ### Consistent words and records (R16, R32, R115, R131) -/

/-- The model's test of COMPOSE's domain is the domain in the words of R77. -/
theorem composeDomain_iff (r : FloatRepr) : composeDomain r = true ↔ inComposeDomain r := by
  unfold inComposeDomain
  cases hc : r.cls <;> simp [composeDomain, hc] <;> omega

theorem inComposeDomain_of_compose {r : FloatRepr} {w : Word} (h : compose r = .ok w) : inComposeDomain r := by
  rw [← composeDomain_iff]
  by_contra hd
  rw [compose_outside (Bool.eq_false_iff.2 hd)] at h
  cases h

/-- A word composed from a record of WFX is the record's own. -/
theorem eq_rawBits_of_compose {r : FloatRepr} {w : Word} (h : compose r = .ok w) (hr : wfx r = true) :
    w = r.rawBits := by
  rw [compose_wfx hr] at h
  cases h
  rfl

/-- Every presentation keeps the words and records at the ports consistent: what was presented is the result of the
sub-block's operation, and the rest stood there before. -/
theorem State.present_recordsConsistent {i : Instr} {s : State} {p : Presented} (hs : recordsConsistent s)
    (hp : presentedBy i = .ok p) : recordsConsistent (s.present p) := by
  obtain ⟨hd, hr, hm, ht⟩ := hs
  refine ⟨fun d q hq => ?_, fun q hq => ?_, fun q hq => ?_, fun q hq => ?_⟩
  · obtain rfl | hold := State.present_decomposer_cases hq
    · rw [presentedBy_decomposer hp]
      exact ⟨decomposeWord_wf q.value, rfl⟩
    · exact hd d q hold
  · obtain rfl | hold := State.present_recomposer_cases hq
    · have hc := presentedBy_recomposer hp
      exact ⟨inComposeDomain_of_compose hc, eq_rawBits_of_compose hc⟩
    · exact hr q hold
  · obtain rfl | hold := State.present_multiplier_cases hq
    · obtain ⟨_, _, hprod⟩ := (multiply_eq_ok_iff q.a q.b q.p).1 (presentedBy_multiplier hp)
      rw [hprod]
      exact ⟨fun ha hb => ⟨multiplyRecord_wfx ha hb, compose_multiplyRecord ha hb⟩, multiplyRecord_sign⟩
    · exact hm q hold
  · obtain rfl | hold := State.present_top_cases hq
    · have hf := presentedBy_top hp
      rw [fmul64Ports_eq, Except.ok.injEq] at hf
      have ha := decomposeWord_wf q.aBits
      have hb := decomposeWord_wf q.bBits
      rw [← hf]
      exact ⟨ha, rfl, hb, rfl, multiplyRecord_wfx (wfx_of_wf ha) (wfx_of_wf hb), rfl⟩
    · exact ht q hold

/-- Settles O57: an idle step changes nothing, and any other presents one result. -/
theorem stepKeepsRecordsConsistent : Obligations.StepKeepsRecordsConsistent := by
  intro s t hs h
  exact step_keeps (fun _ _ hi => hi) (fun _ _ _ hi hp => State.present_recordsConsistent hi hp) hs h

/-! ### Reset (R20, R160) -/

@[simp] theorem State.reset_decomposer (d : DecomposerId) : State.reset.decomposer d = none := by
  cases d <;> rfl

/-- Settles O7: by the value of the reset state, which presents nothing to a step. -/
theorem resetDrivesNothing : Obligations.ResetDrivesNothing :=
  ⟨rfl, rfl, rfl, rfl, rfl, rfl, rfl⟩

/-- Settles O58: no port group is driven, so none has anything to meet. -/
theorem resetMeetsTheInvariants : Obligations.ResetMeetsTheInvariants := by
  obtain ⟨_, _, hr, hm, ht, _⟩ := resetDrivesNothing
  simp [Obligations.ResetMeetsTheInvariants, portsFollow, recordsConsistent, hr, hm, ht]

end Sys2Proof.Machine
end

section
/-! The obligations of the memory family (20_memory.md R33, R36): what an evaluation shows is a function of its
operands, and evaluations on different sub-blocks do not meet. -/

namespace Sys2Proof.Machine

/-! ### Results come from the operands alone (R33) -/

/-- A presentation shows the same values at its own sub-block's ports, whatever stood there before. -/
theorem State.present_own_ports_eq (s s' : State) (p : Presented) :
    (∀ d, p.subBlock = .decomposer d → (s'.present p).decomposer d = (s.present p).decomposer d) ∧
    (p.subBlock = .recomposer → (s'.present p).recomposer = (s.present p).recomposer) ∧
    (p.subBlock = .multiplier → (s'.present p).multiplier = (s.present p).multiplier) ∧
    (p.subBlock = .top → (s'.present p).top = (s.present p).top) := by
  cases p with
  | decomposer d q =>
    refine ⟨fun d' hd => ?_, nofun, nofun, nofun⟩
    cases hd
    simp [State.present]
  | recomposer q => exact ⟨nofun, fun _ => rfl, nofun, nofun⟩
  | multiplier q => exact ⟨nofun, nofun, fun _ => rfl, nofun⟩
  | top q => exact ⟨nofun, nofun, nofun, fun _ => rfl⟩

/-- Settles O53: `presentedBy`, which reads no state, decides both what is presented and what is refused. -/
theorem evaluationDependsOnOperandsAlone : Obligations.EvaluationDependsOnOperandsAlone := by
  refine ⟨fun i s s' t h => ?_, fun i s s' r h => ?_⟩
  · obtain ⟨p, hp, rfl⟩ := (exec_next_iff i s t).1 h
    refine ⟨s'.present p, (exec_next_iff i s' _).2 ⟨p, hp, rfl⟩, ?_⟩
    rw [← presentedBy_subBlock hp]
    exact State.present_own_ports_eq s s' p
  · exact (exec_refused_iff i s' r).2 ((exec_refused_iff i s r).1 h)

/-! ### Evaluations on different sub-blocks (R36, R163) -/

/-- Replacing one decomposer's ports commutes with a presentation anywhere else. -/
theorem State.withDecomposer_present_comm (s : State) {d : DecomposerId} {q : Presented}
    (h : q.subBlock ≠ .decomposer d) (ports : Option DecomposerPorts) :
    (s.withDecomposer d ports).present q = (s.present q).withDecomposer d ports := by
  cases q with
  | decomposer d' y =>
    have hd : d ≠ d' := fun e => h (congrArg SubBlock.decomposer e.symm)
    exact s.withDecomposer_comm hd ports (some y)
  | recomposer y => cases d <;> rfl
  | multiplier y => cases d <;> rfl
  | top y => cases d <;> rfl

/-- Presentations at different sub-blocks' ports commute. -/
theorem State.present_comm (s : State) {p q : Presented} (h : p.subBlock ≠ q.subBlock) :
    (s.present p).present q = (s.present q).present p := by
  cases p with
  | decomposer d x => exact s.withDecomposer_present_comm h.symm (some x)
  | recomposer x =>
    cases q with
    | decomposer d y => exact (s.withDecomposer_present_comm h (some y)).symm
    | recomposer y => exact absurd rfl h
    | multiplier y => rfl
    | top y => rfl
  | multiplier x =>
    cases q with
    | decomposer d y => exact (s.withDecomposer_present_comm h (some y)).symm
    | recomposer y => rfl
    | multiplier y => exact absurd rfl h
    | top y => rfl
  | top x =>
    cases q with
    | decomposer d y => exact (s.withDecomposer_present_comm h (some y)).symm
    | recomposer y => rfl
    | multiplier y => rfl
    | top y => exact absurd rfl h

/-- Settles O54: each instruction presents the same result in either order, and the two presentations commute. -/
theorem independentEvaluationsCommute : Obligations.IndependentEvaluationsCommute := by
  intro i j s si sj hij hi hj
  obtain ⟨p, hp, rfl⟩ := (exec_next_iff i s si).1 hi
  obtain ⟨q, hq, rfl⟩ := (exec_next_iff j s sj).1 hj
  have hpq : p.subBlock ≠ q.subBlock := by
    rwa [presentedBy_subBlock hp, presentedBy_subBlock hq]
  refine ⟨(s.present p).present q, (exec_next_iff j _ _).2 ⟨q, hq, rfl⟩, ?_⟩
  exact (exec_next_iff i _ _).2 ⟨p, hp, s.present_comm hpq⟩

end Sys2Proof.Machine
end

section
/-! The obligations of the encoding family (30_encoding.md R40, R42, R45, R47, R52 and 40_decompose.md R61): every
drive has one meaning, the class rows partition the words as DECOMPOSE does, and a step runs what the next drive
decodes to. -/

namespace Sys2Proof.Machine

/-! ### The five classes on the fields of a word (R42) -/

/-- The condition of a class row on exponent field and fraction (R42). -/
def InClass (c : FloatClass) (e : BitVec 11) (f : BitVec 52) : Prop :=
  match c with
  | .zero => e = 0#11 ∧ f = 0#52
  | .subnormal => e = 0#11 ∧ f ≠ 0#52
  | .normal => e ≠ 0#11 ∧ e ≠ 2047#11
  | .infinity => e = 2047#11 ∧ f = 0#52
  | .nan => e = 2047#11 ∧ f ≠ 0#52

/-- The classification gives the one class whose condition holds. -/
theorem classify_fst_eq_iff (c : FloatClass) (e : BitVec 11) (f : BitVec 52) :
    (classify e f).1 = c ↔ InClass c e f := by
  constructor
  · rintro rfl
    unfold classify
    split_ifs with h1 h2 h3 h4
    · exact h1
    · exact ⟨h2, fun hf => h1 ⟨h2, hf⟩⟩
    · exact h3
    · exact ⟨h4, fun hf => h3 ⟨h4, hf⟩⟩
    · exact ⟨h2, h4⟩
  · intro h
    cases c with
    | zero =>
      obtain ⟨rfl, rfl⟩ := h
      rfl
    | subnormal =>
      obtain ⟨rfl, hf⟩ := h
      rw [classify_subnormal hf]
    | normal =>
      obtain ⟨h0, h1⟩ := h
      rw [classify_normal f h0 h1]
    | infinity =>
      obtain ⟨rfl, rfl⟩ := h
      rfl
    | nan =>
      obtain ⟨rfl, hf⟩ := h
      rw [classify_nan hf]

theorem inClass_of_classify {c : FloatClass} {k : Int} {e : BitVec 11} {f : BitVec 52} (h : classify e f = (c, k)) :
    InClass c e f := (classify_fst_eq_iff c e f).1 (by rw [h])

/-- The class of a word by its fields. -/
theorem classOfWord_eq_iff (x : Word) (c : FloatClass) :
    classOfWord x = c ↔ InClass c (expField x) (fracField x) := by
  rw [← decomposeWord_cls]
  exact classify_fst_eq_iff c _ _

theorem expField_eq_iff (x : Word) (e : BitVec 11) : expField x = e ↔ wordExp x = e.toNat := by
  rw [← BitVec.toNat_inj, expField_toNat, wordExp]

theorem fracField_eq_iff (x : Word) (f : BitVec 52) : fracField x = f ↔ wordFrac x = f.toNat := by
  rw [← BitVec.toNat_inj, fracField_toNat, wordFrac]

/-- The word classes of R42, in the words of the obligations. -/
def IsClassWord (c : FloatClass) (x : Word) : Prop :=
  match c with
  | .zero => isZeroWord x
  | .subnormal => isSubnormalWord x
  | .normal => isNormalWord x
  | .infinity => isInfinityWord x
  | .nan => isNaNWord x

theorem classOfWord_eq_iff_isClassWord (x : Word) (c : FloatClass) : classOfWord x = c ↔ IsClassWord c x := by
  rw [classOfWord_eq_iff]
  cases c with
  | zero => exact and_congr (expField_eq_iff x _) (fracField_eq_iff x _)
  | subnormal => exact and_congr (expField_eq_iff x _) (fracField_eq_iff x _).not
  | normal =>
    have he : wordExp x < 2048 := Nat.mod_lt _ (by decide)
    simp only [InClass, IsClassWord, isNormalWord, Ne, expField_eq_iff, BitVec.toNat_ofNat]
    omega
  | infinity => exact and_congr (expField_eq_iff x _) (fracField_eq_iff x _)
  | nan => exact and_congr (expField_eq_iff x _) (fracField_eq_iff x _).not

/-- The mask of the Zero and Infinity rows keeps exponent field and fraction. -/
theorem mask_magnitude_eq_iff (x : Word) (e : BitVec 11) (f : BitVec 52) :
    x &&& 0x7FFFFFFFFFFFFFFF#64 = wordOf false e f ↔ wordExp x = e.toNat ∧ wordFrac x = f.toNat := by
  have hf := f.isLt
  have hx := (fracField x).isLt
  rw [← expField_eq_iff, ← fracField_eq_iff, ← BitVec.toNat_inj, mask_magnitude, wordOf_toNat, Bool.toNat_false,
    ← BitVec.toNat_inj, ← BitVec.toNat_inj]
  omega

/-- The mask of the Subnormal and NaN rows keeps the exponent field. -/
theorem mask_field_eq_iff (x : Word) (e : BitVec 11) :
    x &&& 0x7FF0000000000000#64 = wordOf false e 0#52 ↔ wordExp x = e.toNat := by
  rw [← expField_eq_iff, ← BitVec.toNat_inj, mask_field, wordOf_toNat, Bool.toNat_false, ← BitVec.toNat_inj,
    BitVec.toNat_ofNat]
  omega

/-- Settles O8: the class by the classification of the word's fields, and each mask by the fields it keeps. -/
theorem classRowsClassifyEveryWord : Obligations.ClassRowsClassifyEveryWord := by
  intro x
  have hclass := classOfWord_eq_iff_isClassWord x
  exact ⟨hclass .zero, hclass .subnormal, hclass .normal, hclass .infinity, hclass .nan,
    (mask_magnitude_eq_iff x 0#11 0#52).symm, and_congr_left' (mask_field_eq_iff x 0#11).symm,
    (mask_magnitude_eq_iff x 2047#11 0#52).symm, and_congr_left' (mask_field_eq_iff x 2047#11).symm,
    decomposeWord_cls x⟩

/-! ### The class rows as instructions (R42, R61) -/

/-- A class row on fields of its class shows the word and the record of its table row. -/
theorem exec_classRowInstr {c : FloatClass} {k : Int} {e : BitVec 11} {f : BitVec 52} (h : classify e f = (c, k))
    (sg : SignAt) (s : State) :
    exec (classRowInstr c sg e f) s =
      .next (s.withDecomposer sg.unit (some ⟨wordOf sg.sign e f, tableRecord c k sg.sign e f⟩)) := by
  have hin := inClass_of_classify h
  cases c with
  | zero =>
    obtain ⟨rfl, rfl⟩ := hin
    cases h
    rfl
  | subnormal =>
    obtain ⟨rfl, hf⟩ := hin
    cases (classify_subnormal hf).symm.trans h
    simp [classRowInstr, exec_eq, presentedBy, State.present, hf]
  | normal =>
    obtain ⟨h0, h1⟩ := hin
    cases (classify_normal f h0 h1).symm.trans h
    simp [classRowInstr, exec_eq, presentedBy, State.present, h0, h1]
  | infinity =>
    obtain ⟨rfl, rfl⟩ := hin
    cases h
    rfl
  | nan =>
    obtain ⟨rfl, hf⟩ := hin
    cases (classify_nan hf).symm.trans h
    simp [classRowInstr, exec_eq, presentedBy, State.present, hf]

/-- A word with the given fields as numbers. -/
theorem eq_wordOf {w : Word} {sg : Bool} {e : BitVec 11} {f : BitVec 52}
    (h : w.toNat = sg.toNat * 2 ^ 63 + e.toNat * 2 ^ 52 + f.toNat) : w = wordOf sg e f :=
  BitVec.eq_of_toNat_eq (by rw [h, wordOf_toNat])

/-- Settles O13: each row is `exec_classRowInstr` at the classification of its fields. -/
theorem classRowsGiveTheTableRecords : Obligations.ClassRowsGiveTheTableRecords := by
  refine ⟨fun d sg s w hw => ?_, fun d sg f s w hf hw => ?_, fun d sg e f s w h0 h1 hw => ?_, fun d sg s w hw => ?_,
    fun d sg f s w hf hw => ?_⟩
  · obtain rfl : w = wordOf sg 0#11 0#52 := eq_wordOf (by simpa using hw)
    exact exec_classRowInstr classify_zero ⟨d, sg⟩ s
  · obtain rfl : w = wordOf sg 0#11 f := eq_wordOf (by simpa using hw)
    exact exec_classRowInstr (classify_subnormal hf) ⟨d, sg⟩ s
  · obtain rfl := eq_wordOf hw
    have hc : classify e f = (.normal, (e.toNat : Int) - 1023) :=
      classify_normal f (by rintro rfl; contradiction) (by rintro rfl; contradiction)
    exact exec_classRowInstr hc ⟨d, sg⟩ s
  · obtain rfl : w = wordOf sg 2047#11 0#52 := eq_wordOf (by simpa using hw)
    exact exec_classRowInstr classify_infinity ⟨d, sg⟩ s
  · obtain rfl : w = wordOf sg 2047#11 f := eq_wordOf (by simpa using hw)
    exact exec_classRowInstr (classify_nan hf) ⟨d, sg⟩ s

/-- The record of a word holds the classification of its fields. -/
theorem classify_fields (x : Word) :
    classify (expField x) (fracField x) = ((decomposeWord x).cls, (decomposeWord x).exponent) := rfl

/-- What the classifier reads a word as: the row of its class, on its own fields. -/
theorem decode_classifier (d : DecomposerId) (x : Word) :
    decode (.classifier d x) =
      .ok (classRowInstr (decomposeWord x).cls ⟨d, signField x⟩ (expField x) (fracField x)) := by
  have h := decode_classifier_wordOf (s := ⟨d, signField x⟩) (classify_fields x)
  rwa [wordOf_fields] at h

/-- Settles O14: the class row's record is the table's, which is the record of DECOMPOSE. -/
theorem classRowsActAsDecompose : Obligations.ClassRowsActAsDecompose := by
  intro d x i s h
  rw [decode_classifier] at h
  cases h
  rw [exec_classRowInstr (classify_fields x), tableRecord_eq _ _ _ _ _ (classify_fields x), wordOf_fields]
  rfl

/-- Settles O15: each row tests its fields before it shows anything. -/
theorem illFormedClassRowsAreRefused : Obligations.IllFormedClassRowsAreRefused := by
  intro d sg f s
  simp [exec_refused_iff, presentedBy]

/-! ### Every drive has one meaning (R40, R45, R52) -/

theorem decode_recomposer_eq_ok_iff (w : Bundle) (i : Instr) :
    decode (.recomposer w) = .ok i ↔ ∃ r, reprOf w = .ok r ∧ i = .compose r := by
  cases hw : reprOf w <;> simp [decode, hw, eq_comm]

theorem decode_multiplier_eq_ok_iff (wa wb : Bundle) (i : Instr) :
    decode (.multiplier wa wb) = .ok i ↔ ∃ a b, reprOf wa = .ok a ∧ reprOf wb = .ok b ∧ i = .multiply a b := by
  cases ha : reprOf wa <;> cases hb : reprOf wb <;> simp [decode, ha, hb, eq_comm]

/-- A class row on fields of its class is well formed, and is written as the word of its fields. -/
theorem classRowInstr_encoding {c : FloatClass} {e : BitVec 11} {f : BitVec 52} (h : InClass c e f) (sg : SignAt) :
    (classRowInstr c sg e f).wellFormed = true ∧ (classRowInstr c sg e f).subBlock = .decomposer sg.unit ∧
      encode (classRowInstr c sg e f) = .classifier sg.unit (wordOf sg.sign e f) := by
  cases c with
  | zero =>
    obtain ⟨rfl, rfl⟩ := h
    exact ⟨rfl, rfl, rfl⟩
  | subnormal =>
    obtain ⟨rfl, hf⟩ := h
    exact ⟨decide_eq_true hf, rfl, rfl⟩
  | normal =>
    obtain ⟨h0, h1⟩ := h
    exact ⟨by simp [classRowInstr, Instr.wellFormed, h0, h1], rfl, rfl⟩
  | infinity =>
    obtain ⟨rfl, rfl⟩ := h
    exact ⟨rfl, rfl, rfl⟩
  | nan =>
    obtain ⟨rfl, hf⟩ := h
    exact ⟨decide_eq_true hf, rfl, rfl⟩

/-- Settles O2: bundles by `bundleOf_reprOf`, a classified word by the class its own fields meet. -/
theorem encodeUndoesDecode : Obligations.EncodeUndoesDecode := by
  intro d i h
  cases d with
  | decomposer d x =>
    cases h
    exact ⟨rfl, rfl, rfl⟩
  | recomposer w =>
    obtain ⟨r, hr, rfl⟩ := (decode_recomposer_eq_ok_iff w i).1 h
    obtain ⟨hfits, hw⟩ := bundleOf_reprOf hr
    exact ⟨hfits, rfl, congrArg Drive.recomposer hw⟩
  | multiplier wa wb =>
    obtain ⟨a, b, ha, hb, rfl⟩ := (decode_multiplier_eq_ok_iff wa wb i).1 h
    obtain ⟨hfa, hwa⟩ := bundleOf_reprOf ha
    obtain ⟨hfb, hwb⟩ := bundleOf_reprOf hb
    exact ⟨by simp [Instr.wellFormed, hfa, hfb], rfl, congrArg₂ Drive.multiplier hwa hwb⟩
  | top x y =>
    cases h
    exact ⟨rfl, rfl, rfl⟩
  | classifier d x =>
    rw [decode_classifier] at h
    cases h
    have henc := classRowInstr_encoding (inClass_of_classify (classify_fields x)) ⟨d, signField x⟩
    rwa [wordOf_fields] at henc

/-- Settles O4: by evaluating the decoder on the seven drives. -/
theorem sampleWordsDecode : Obligations.SampleWordsDecode := by
  unfold Obligations.SampleWordsDecode
  decide

/-! ### A step runs the next drive's instruction (R47) -/

theorem step_of_decode {s : State} {d : Drive} {rest : List Drive} {i : Instr} (hp : s.pending = d :: rest)
    (hd : decode d = .ok i) : step s = exec i { s with pending := rest } := by
  simp [step, hp, hd]

theorem decodeTableWord_eq_some_iff (nbits w : Nat) (i : Instr) :
    decodeTableWord nbits w = some i ↔ decode (driveOfTable nbits w) = .ok i := by
  unfold decodeTableWord
  cases decode (driveOfTable nbits w) <;> simp

/-- Settles O5: operands fetched from a table row stand before what was presented, which is left after them. -/
theorem stepRunsTheDecodedInstruction : Obligations.StepRunsTheDecodedInstruction :=
  ⟨fun _ _ _ _ => step_of_decode, fun s nbits w i h =>
    step_of_decode (s := s.withFetchWord nbits w) rfl ((decodeTableWord_eq_some_iff nbits w i).1 h)⟩

end Sys2Proof.Machine
end

section
/-! The obligations of the decomposer family (40_decompose.md R60 to R64): the record of DECOMPOSE read off the word's
fields as numbers, its ranges, and the word rebuilt from it. -/

namespace Sys2Proof.Machine

/-! ### The record by the word's fields (R60, R61) -/

/-- DECOMPOSE shows the word and its record at the driven decomposer, and refuses nothing. -/
theorem exec_decompose (d : DecomposerId) (x : Word) (s : State) :
    exec (.decompose ⟨d, x⟩) s = .next (s.withDecomposer d (some ⟨x, decomposeWord x⟩)) := rfl

theorem decomposeWord_sign_eq_true_iff (x : Word) : (decomposeWord x).sign = true ↔ wordSign x = 1 := by
  rw [wordSign, ← signField_toNat, Bool.toNat_eq_one]
  rfl

theorem decomposeWord_significand (x : Word) : (decomposeWord x).significand = wordFrac x := fracField_toNat x

/-- The stored exponent column of R61. -/
def storedExponent (c : FloatClass) (field : Nat) : Int :=
  match c with
  | .zero => 0
  | .subnormal => -1022
  | .normal => field - 1023
  | .infinity => 0
  | .nan => 0

theorem classify_snd (e : BitVec 11) (f : BitVec 52) : (classify e f).2 = storedExponent (classify e f).1 e.toNat := by
  unfold classify
  split_ifs <;> rfl

/-- A word in a class decomposes into that class, with the exponent its row of R61 stores. -/
theorem decomposeWord_of_isClassWord {c : FloatClass} {x : Word} (h : IsClassWord c x) :
    (decomposeWord x).cls = c ∧ (decomposeWord x).exponent = storedExponent c (wordExp x) := by
  have hc : (decomposeWord x).cls = c := by rwa [decomposeWord_cls, classOfWord_eq_iff_isClassWord]
  refine ⟨hc, ?_⟩
  rw [← hc, wordExp, ← expField_toNat]
  exact classify_snd (expField x) (fracField x)

/-- Settles O9: each class of R42 through its row of R61. -/
theorem decomposeGivesTheRecord : Obligations.DecomposeGivesTheRecord := by
  intro d x s
  exact ⟨decomposeWord x, exec_decompose d x s, rfl, decomposeWord_sign_eq_true_iff x, decomposeWord_significand x,
    fun he hf => decomposeWord_of_isClassWord (c := .zero) ⟨he, hf⟩,
    fun he hf => decomposeWord_of_isClassWord (c := .subnormal) ⟨he, hf⟩,
    fun he hf => decomposeWord_of_isClassWord (c := .infinity) ⟨he, hf⟩,
    fun he hf => decomposeWord_of_isClassWord (c := .nan) ⟨he, hf⟩,
    fun h1 h2 => decomposeWord_of_isClassWord (c := .normal) ⟨h1, h2⟩⟩

/-! ### Ranges and the word of a record (R62, R63, R64) -/

/-- The field ranges of R17, row by row, in the bounds of R64. -/
theorem fieldRanges_rows {r : FloatRepr} (h : fieldRanges r = true) :
    (r.cls = .zero → r.exponent = 0 ∧ r.significand = 0) ∧
    (r.cls = .subnormal → r.exponent = -1022 ∧ 1 ≤ r.significand ∧ r.significand ≤ 2 ^ 52 - 1) ∧
    (r.cls = .normal → -1022 ≤ r.exponent ∧ r.exponent ≤ 1023 ∧ r.significand ≤ 2 ^ 52 - 1) ∧
    (r.cls = .infinity → r.exponent = 0 ∧ r.significand = 0) ∧
    (r.cls = .nan → r.exponent = 0 ∧ 1 ≤ r.significand ∧ r.significand ≤ 2 ^ 52 - 1) := by
  refine ⟨fun hc => ?_, fun hc => ?_, fun hc => ?_, fun hc => ?_, fun hc => ?_⟩ <;>
    simp only [fieldRanges, hc, Config.eMin, Config.eMax, Bool.and_eq_true, decide_eq_true_eq] at h <;> omega

/-- Packing a word's fields, read as numbers, gives the word. -/
theorem pack_wordFields (x : Word) : pack (signField x) (wordExp x) (wordFrac x) = x := by
  rw [wordExp, wordFrac, ← expField_toNat, ← fracField_toNat]
  exact pack_fields x

/-- Settles O10: the record is well formed by `decomposeWord_wf`, and the ranges of R64 are those of WF. -/
theorem decomposedRecordsAreWellFormed : Obligations.DecomposedRecordsAreWellFormed := by
  intro d x s
  exact ⟨decomposeWord x, exec_decompose d x s, rfl, (pack_wordFields x).symm, decomposeWord_wf x,
    fieldRanges_rows (decomposeWord_fieldRanges x)⟩

/-- The four fields of a word's record other than `rawBits` rebuild the word. -/
theorem pack_decomposeWord (x : Word) :
    pack (decomposeWord x).sign (packField (decomposeWord x).cls (decomposeWord x).exponent)
      (decomposeWord x).significand = x :=
  ((wf_iff (decomposeWord x)).1 (decomposeWord_wf x)).2.symm

/-- Settles O11: total by `exec_decompose`, and both words are packed from the same four fields. -/
theorem decomposeIsTotalAndInjective : Obligations.DecomposeIsTotalAndInjective := by
  refine ⟨fun d x s => ⟨_, exec_decompose d x s⟩, fun x y hsign hexp hsig hcls => ?_⟩
  calc
    x = pack (decomposeWord x).sign (packField (decomposeWord x).cls (decomposeWord x).exponent)
          (decomposeWord x).significand := (pack_decomposeWord x).symm
    _ = pack (decomposeWord y).sign (packField (decomposeWord y).cls (decomposeWord y).exponent)
          (decomposeWord y).significand := by rw [hsign, hexp, hsig, hcls]
    _ = y := pack_decomposeWord y

end Sys2Proof.Machine
end

section
/-! The obligations of the recomposer family (41_compose.md R70 to R77): PACK as arithmetic on the three fields, the
word COMPOSE packs, its domain, and the two round trips with DECOMPOSE. -/

namespace Sys2Proof.Machine

/-! ### PACK (R70) -/

/-- Within 52 bits of fraction PACK is a concatenation. -/
theorem wordFields_pack (s : Bool) {field frac : Nat} (hf : field < 2048) (h : frac < 2 ^ 52) :
    wordSign (pack s field frac) = s.toNat ∧ wordExp (pack s field frac) = field ∧
      wordFrac (pack s field frac) = frac := by
  refine ⟨?_, ?_, ?_⟩
  · rw [wordSign, ← signField_toNat, signField_pack s (by omega)]
  · rw [wordExp, ← expField_toNat, expField_pack s hf h]
  · rw [wordFrac, ← fracField_toNat, fracField_pack s hf h]

/-- A fraction of 2^52 is a carry into the exponent field (D8). -/
theorem pack_carry_eq_pack (s : Bool) : pack s 0 (2 ^ 52) = pack s 1 0 := by
  rw [pack_carry, wordOf_eq_pack]
  rfl

/-- Settles O16: the concatenation of the fields, and the carry as the concatenation of field 1 and fraction 0. -/
theorem packAddsTheFraction : Obligations.PackAddsTheFraction := by
  refine ⟨pack_toNat_mod, fun s field frac hfield hfrac => ?_, fun s => ?_⟩
  · exact wordFields_pack s (by omega) (by omega)
  · rw [pack_carry_eq_pack]
    exact wordFields_pack s (by decide) (by decide)

/-! ### What COMPOSE shows and when it is refused (R71, R77) -/

/-- COMPOSE shows a word at the recomposer's ports exactly when that word is the checked operation's result. -/
theorem exec_compose_eq_next_iff (r : FloatRepr) (s : State) (w : Word) :
    exec (.compose r) s = .next { s with recomposer := some { repr := r, value := w } } ↔ compose r = .ok w := by
  rw [exec_eq]
  cases hc : compose r <;> simp [presentedBy, hc, Except.map, State.present]

theorem compose_of_inDomain {r : FloatRepr} (h : inComposeDomain r) : compose r = .ok (composeWord r) :=
  compose_of_domain ((composeDomain_iff r).2 h)

theorem compose_of_not_inDomain {r : FloatRepr} (h : ¬ inComposeDomain r) :
    compose r = .error .composeOutsideDomain :=
  compose_outside (Bool.eq_false_iff.2 fun hd => h ((composeDomain_iff r).1 hd))

theorem exec_compose_of_inDomain {r : FloatRepr} (h : inComposeDomain r) (s : State) :
    exec (.compose r) s = .next { s with recomposer := some { repr := r, value := composeWord r } } :=
  (exec_compose_eq_next_iff r s _).2 (compose_of_inDomain h)

theorem exec_compose_of_not_inDomain {r : FloatRepr} (h : ¬ inComposeDomain r) (s : State) :
    exec (.compose r) s = .refused .composeOutsideDomain :=
  (exec_refused_iff _ s _).2 (by rw [presentedBy, compose_of_not_inDomain h]; rfl)

/-- Settles O18: a next state and a refusal exclude each other, so the two cases of the domain decide. -/
theorem composeCompletesExactlyOnItsDomain : Obligations.ComposeCompletesExactlyOnItsDomain := by
  refine ⟨fun r s => ⟨fun h => ⟨_, exec_compose_of_inDomain h s⟩, fun ⟨t, ht⟩ => ?_⟩,
    fun r s h => exec_compose_of_not_inDomain h s, fun r h => inComposeDomain_of_compose (compose_wfx h)⟩
  by_contra h
  rw [exec_compose_of_not_inDomain h s] at ht
  cases ht

/-! ### The word of each class: the rows of R71 -/

section
variable {r : FloatRepr}

theorem composeWord_zero (hc : r.cls = .zero) : composeWord r = pack r.sign 0 0 := by
  simp [composeWord, packField, composeFraction, hc]

theorem composeWord_subnormal (hc : r.cls = .subnormal) : composeWord r = pack r.sign 0 r.significand := by
  simp [composeWord, packField, composeFraction, hc]

theorem composeWord_infinity (hc : r.cls = .infinity) : composeWord r = pack r.sign 2047 0 := by
  simp [composeWord, packField, composeFraction, hc]

theorem composeWord_emptyNaN (hc : r.cls = .nan) (hm : r.significand = 0) : composeWord r = pack r.sign 2047 1 := by
  simp [composeWord, packField, composeFraction, hc, hm]

theorem composeWord_nan (hc : r.cls = .nan) (hm : r.significand ≠ 0) :
    composeWord r = pack r.sign 2047 r.significand := by
  simp [composeWord, packField, composeFraction, hc, hm]

theorem composeWord_normal (hc : r.cls = .normal) :
    composeWord r = pack r.sign (r.exponent + 1023).toNat r.significand := by
  simp [composeWord, packField, composeFraction, hc]

end

/-- Settles O17: each class by its row of R71, whose field and fraction stay below the sign bit on the domain. -/
theorem composePacksTheFieldsOfTheClass : Obligations.ComposePacksTheFieldsOfTheClass := by
  intro r s h
  have ⟨hnormal, hsubnormal, hnan⟩ := h
  refine ⟨composeWord r, exec_compose_of_inDomain h s, fun hc => ?_, fun hc => ?_, fun hc => ?_, fun hc hm => ?_,
    fun hc hm => ?_, fun hc => ?_⟩
  · rw [composeWord_zero hc, pack_toNat _ (by decide)]
    omega
  · have hm := hsubnormal hc
    rw [composeWord_subnormal hc, pack_toNat _ (by omega)]
    omega
  · rw [composeWord_infinity hc, pack_toNat _ (by decide)]
    omega
  · rw [composeWord_emptyNaN hc hm, pack_toNat _ (by decide)]
  · have hlt := hnan hc
    rw [composeWord_nan hc hm, pack_toNat _ (by omega)]
  · have hrange := hnormal hc
    rw [composeWord_normal hc, pack_toNat _ (by omega)]
    omega

/-! ### The repaired NaN and the extended record (R72, R76) -/

/-- Settles O19: such a record is in the domain, and its word is PACK of field 2047 and fraction 1. -/
theorem composeRepairsAnEmptyNaN : Obligations.ComposeRepairsAnEmptyNaN := by
  intro r s hc hm
  have hd : inComposeDomain r := by simp [inComposeDomain, hc, hm]
  rw [exec_compose_of_inDomain hd, composeWord_emptyNaN hc hm]
  cases r.sign <;> rfl

/-- The word of the extended record, by its sign. -/
theorem pack_carry_eq_ite (s : Bool) :
    pack s 0 (2 ^ 52) = if s then 0x8010000000000000#64 else 0x0010000000000000#64 := by
  cases s <;> rfl

/-- Settles O23: COMPOSE packs the word that R18's record carries, a carry into the exponent field. -/
theorem extendedRecordComposesToTheSmallestNormal : Obligations.ExtendedRecordComposesToTheSmallestNormal := by
  refine ⟨fun r s hc hm => ?_, fun r hx => ?_⟩
  · have hd : inComposeDomain r := by simp [inComposeDomain, hc, hm]
    rw [exec_compose_of_inDomain hd, composeWord_subnormal hc, hm, pack_carry_eq_ite]
  · obtain ⟨_, _, _, hraw⟩ := (extendedSubnormal_iff r).1 hx
    rw [hraw, pack_carry_eq_ite]

/-! ### The fields COMPOSE reads (R73) -/

/-- Records that agree on the fields their class reads compose alike, or are both refused. -/
theorem compose_congr {r q : FloatRepr} (hc : r.cls = q.cls) (hs : r.sign = q.sign)
    (he : r.cls = .normal → r.exponent = q.exponent)
    (hm : r.cls = .normal ∨ r.cls = .subnormal ∨ r.cls = .nan → r.significand = q.significand) :
    compose r = compose q := by
  obtain ⟨_, sign, exponent, significand, cls⟩ := r
  obtain ⟨_, _, _, _, _⟩ := q
  cases hc
  cases hs
  cases cls with
  | normal =>
    cases he rfl
    cases hm (.inl rfl)
    rfl
  | subnormal =>
    cases hm (.inr (.inl rfl))
    rfl
  | zero => rfl
  | infinity => rfl
  | nan =>
    cases hm (.inr (.inr rfl))
    rfl

/-- Settles O20: the word shown is the checked operation's, which is the same for both records. -/
theorem composeReadsOnlyTheFieldsOfItsClass : Obligations.ComposeReadsOnlyTheFieldsOfItsClass := by
  intro r q s w hc hs he hm h
  rw [exec_compose_eq_next_iff] at h ⊢
  rwa [← compose_congr hc hs he hm]

/-! ### Round trips with DECOMPOSE (R74, R75) -/

/-- The record of a word composes to the word. -/
theorem compose_decomposeWord (x : Word) : compose (decomposeWord x) = .ok x :=
  compose_wfx (wfx_of_wf (decomposeWord_wf x))

/-- Settles O21: the decomposer shows the word's record, which composes to the word from any state. -/
theorem wordRoundTrip : Obligations.WordRoundTrip := by
  intro d x s
  exact ⟨decomposeWord x, s.withDecomposer d (some ⟨x, decomposeWord x⟩), exec_decompose d x s, by simp,
    (exec_compose_eq_next_iff _ _ x).2 (compose_decomposeWord x)⟩

/-- The word of a record decomposes to that record exactly when the record is well formed: every decomposed record
is, and a well-formed record composes to its own `rawBits`. -/
theorem decomposeWord_eq_iff_wf {r : FloatRepr} {w : Word} (h : compose r = .ok w) :
    decomposeWord w = r ↔ wf r = true := by
  constructor
  · rintro rfl
    exact decomposeWord_wf w
  · intro hr
    rw [eq_rawBits_of_compose h (wfx_of_wf hr)]
    exact decomposeWord_rawBits hr

/-- Settles O22: the composed word's record by `decomposeWord_eq_iff_wf`. -/
theorem recordRoundTrip : Obligations.RecordRoundTrip := by
  intro d r s h
  exact ⟨composeWord r, decomposeWord (composeWord r), exec_compose_of_inDomain h s,
    exec_decompose d (composeWord r) s, decomposeWord_eq_iff_wf (compose_of_inDomain h)⟩

end Sys2Proof.Machine
end

section
/-! The obligations of the special-value family of MULTIPLY (42_multiply_special.md R80 to R91): its domain, the class
and sign of its result, and closure and exchange of the operands. -/

namespace Sys2Proof.Machine

/-! ### What MULTIPLY shows and when it is refused (R90, R144) -/

/-- MULTIPLY shows a record at the multiplier's ports exactly when that record is the checked operation's result. -/
theorem exec_multiply_eq_next_iff (a b : FloatRepr) (s : State) (p : FloatRepr) :
    exec (.multiply a b) s = .next { s with multiplier := some { a := a, b := b, p := p } } ↔ multiply a b = .ok p := by
  rw [exec_eq]
  cases hm : multiply a b <;> simp [presentedBy, hm, Except.map, State.present]

theorem exec_multiply_of_operands {a b : FloatRepr} (ha : multiplyOperand a = true) (hb : multiplyOperand b = true)
    (s : State) :
    exec (.multiply a b) s = .next { s with multiplier := some { a := a, b := b, p := multiplyRecord a b } } :=
  (exec_multiply_eq_next_iff a b s _).2 (multiply_of_operands ha hb)

theorem exec_multiply_of_wfx {a b : FloatRepr} (ha : wfx a = true) (hb : wfx b = true) (s : State) :
    exec (.multiply a b) s = .next { s with multiplier := some { a := a, b := b, p := multiplyRecord a b } } :=
  exec_multiply_of_operands (multiplyOperand_of_wfx ha) (multiplyOperand_of_wfx hb) s

theorem exec_multiply_eq_refused_iff (a b : FloatRepr) (s : State) (e : Refusal) :
    exec (.multiply a b) s = .refused e ↔ multiply a b = .error e := by
  rw [exec_refused_iff, presentedBy]
  cases multiply a b <;> simp [Except.map]

theorem unpackDiverges_iff (a b : FloatRepr) :
    unpackDiverges a b = true ↔ (a.cls = .normal ∨ a.cls = .subnormal) ∧ (b.cls = .normal ∨ b.cls = .subnormal) ∧
      ((a.cls = .subnormal ∧ a.significand = 0) ∨ (b.cls = .subnormal ∧ b.significand = 0)) := by
  simp [unpackDiverges, finiteNonzero, zeroSubnormal, and_assoc]

/-- The record on which the loop of R101 would not end is in no operand's domain. -/
theorem multiplyOperand_eq_false_of_subnormal_zero {r : FloatRepr} (hc : r.cls = .subnormal) (hm : r.significand = 0) :
    multiplyOperand r = false := by
  rw [Bool.eq_false_iff, Ne, multiplyOperand_iff]
  rintro (hw | hn)
  · obtain ⟨_, hpos, _⟩ := wfx_subnormal hw hc
    omega
  · simp [hc] at hn

/-- Operands that would keep the loop of R101 from ending are outside the domain. -/
theorem not_operands_of_unpackDiverges {a b : FloatRepr} (h : unpackDiverges a b = true) :
    ¬ (multiplyOperand a = true ∧ multiplyOperand b = true) := by
  obtain ⟨_, _, ⟨hc, hm⟩ | ⟨hc, hm⟩⟩ := (unpackDiverges_iff a b).1 h <;>
    simp [multiplyOperand_eq_false_of_subnormal_zero hc hm]

/-- Outside its domain MULTIPLY is refused, by the name of the loop of R101 where that would not end. -/
theorem multiply_outside {a b : FloatRepr} (h : ¬ (multiplyOperand a = true ∧ multiplyOperand b = true)) :
    multiply a b = .error (if unpackDiverges a b then .unpackNeverEnds else .multiplyOutsideDomain) := by
  rw [multiply, if_neg (by simpa using h)]
  split <;> rfl

theorem exec_multiply_outside {a b : FloatRepr} (h : ¬ (multiplyOperand a = true ∧ multiplyOperand b = true))
    (s : State) :
    exec (.multiply a b) s = .refused (if unpackDiverges a b then .unpackNeverEnds else .multiplyOutsideDomain) :=
  (exec_multiply_eq_refused_iff a b s _).2 (multiply_outside h)

theorem multiply_eq_unpackNeverEnds_iff (a b : FloatRepr) :
    multiply a b = .error .unpackNeverEnds ↔ unpackDiverges a b = true := by
  constructor
  · intro h
    by_cases hd : multiplyOperand a = true ∧ multiplyOperand b = true
    · simp [multiply_of_operands hd.1 hd.2] at h
    · by_contra hu
      simp [multiply_outside hd, hu] at h
  · intro hu
    rw [multiply_outside (not_operands_of_unpackDiverges hu), if_pos hu]

/-- Settles O24: a next state is the checked operation's, which answers exactly on the domain. -/
theorem multiplyCompletesExactlyOnItsDomain : Obligations.MultiplyCompletesExactlyOnItsDomain := by
  simp only [Obligations.MultiplyCompletesExactlyOnItsDomain, ← multiplyOperand_iff]
  refine ⟨fun a b s => ⟨fun ⟨ha, hb⟩ => ⟨_, exec_multiply_of_operands ha hb s⟩, fun ⟨t, ht⟩ => ?_⟩,
    fun a b s h => ?_, fun a b s => ?_⟩
  · by_contra h
    rw [exec_multiply_outside h] at ht
    cases ht
  · rw [exec_multiply_outside h]
    split
    · exact .inr rfl
    · exact .inl rfl
  · rw [exec_multiply_eq_refused_iff, multiply_eq_unpackNeverEnds_iff, unpackDiverges_iff]

/-! ### A NaN operand (R83) -/

/-- Settles O25: the first two branches of R80. -/
theorem nanOperandIsReturnedUnchanged : Obligations.NaNOperandIsReturnedUnchanged := by
  intro a b s ha hb
  rw [exec_multiply_of_operands ((multiplyOperand_iff a).2 ha) ((multiplyOperand_iff b).2 hb)]
  refine ⟨fun hna => ?_, fun hna hnb => ?_⟩
  · rw [multiplyRecord_nan_left hna]
  · rw [multiplyRecord_nan_right hna hnb]

/-! ### Infinity and Zero operands (R84 to R86) -/

/-! The words of the records `mkrepr` builds in these branches (R82). -/

theorem mkRepr_nan_rawBits_toNat (s : Bool) {m : Nat} (h : m < 2 ^ 52) :
    (mkRepr .nan s 0 m).rawBits.toNat = s.toNat * 2 ^ 63 + 2047 * 2 ^ 52 + m :=
  pack_toNat s (field := 2047) (frac := m) (by omega)

theorem mkRepr_infinity_rawBits_toNat (s : Bool) :
    (mkRepr .infinity s 0 0).rawBits.toNat = s.toNat * 2 ^ 63 + 2047 * 2 ^ 52 :=
  (pack_toNat s (by decide)).trans (Nat.add_zero _)

theorem mkRepr_zero_rawBits_toNat (s : Bool) : (mkRepr .zero s 0 0).rawBits.toNat = s.toNat * 2 ^ 63 :=
  (pack_toNat s (field := 0) (frac := 0) (by decide)).trans (by omega)

theorem multiplyRecord_of_infinity {a b : FloatRepr}
    (h : a.cls = .infinity ∧ b.cls ≠ .nan ∧ b.cls ≠ .zero ∨ b.cls = .infinity ∧ a.cls ≠ .nan ∧ a.cls ≠ .zero) :
    multiplyRecord a b = mkRepr .infinity (resultSign a b) 0 0 := by
  rcases h with ⟨hi, hn, hz⟩ | ⟨hi, hn, hz⟩
  · exact multiplyRecord_infinity (by simp [hi]) hn (by simp [infinityTimesZero, hi, hz]) (.inl hi)
  · exact multiplyRecord_infinity hn (by simp [hi]) (by simp [infinityTimesZero, hi, hz]) (.inr hi)

theorem multiplyRecord_of_zero {a b : FloatRepr}
    (h : a.cls = .zero ∧ b.cls ≠ .nan ∧ b.cls ≠ .infinity ∨ b.cls = .zero ∧ a.cls ≠ .nan ∧ a.cls ≠ .infinity) :
    multiplyRecord a b = mkRepr .zero (resultSign a b) 0 0 := by
  rcases h with ⟨hz, hn, hi⟩ | ⟨hz, hn, hi⟩
  · exact multiplyRecord_zero (by simp [hz]) hn (by simp [hz]) hi (.inl hz)
  · exact multiplyRecord_zero hn (by simp [hz]) hi (by simp [hz]) (.inr hz)

/-- Settles O26: the third branch of R80, whose fraction keeps to the range of R7. -/
theorem infinityTimesZeroGivesTheInvalidNaN : Obligations.InfinityTimesZeroGivesTheInvalidNaN := by
  intro a b s ha hb h
  obtain ⟨hpos, hlt⟩ := invalidNanFraction_bounds
  refine ⟨_, exec_multiply_of_wfx ha hb s, ?_⟩
  rw [multiplyRecord_invalid ((infinityTimesZero_iff a b).2 h)]
  exact ⟨rfl, rfl, rfl, rfl, hpos, Nat.le_sub_one_of_lt hlt, mkRepr_nan_rawBits_toNat _ hlt⟩

/-- Settles O27: the fourth branch of R80. -/
theorem infinityOperandGivesInfinity : Obligations.InfinityOperandGivesInfinity := by
  intro a b s ha hb h
  refine ⟨_, exec_multiply_of_wfx ha hb s, ?_⟩
  rw [multiplyRecord_of_infinity h]
  exact ⟨rfl, rfl, rfl, rfl, mkRepr_infinity_rawBits_toNat _⟩

/-- Settles O28: the fifth branch of R80. -/
theorem zeroOperandGivesZero : Obligations.ZeroOperandGivesZero := by
  intro a b s ha hb h
  refine ⟨_, exec_multiply_of_wfx ha hb s, ?_⟩
  rw [multiplyRecord_of_zero h]
  exact ⟨rfl, rfl, rfl, rfl, mkRepr_zero_rawBits_toNat _⟩

/-! ### The class of the result (R81, R87, R88) -/

/-- Without a NaN operand only Infinity x Zero makes a NaN. -/
theorem multiplyRecord_cls_eq_nan_iff {a b : FloatRepr} (ha : a.cls ≠ .nan) (hb : b.cls ≠ .nan) :
    (multiplyRecord a b).cls = .nan ↔ infinityTimesZero a b = true := by
  rcases multiply_branches a b with h | ⟨_, h⟩ | h | ⟨_, _, hiz, hi⟩ | ⟨_, _, ia, ib, hz⟩ | ⟨fa, fb⟩
  · exact absurd h ha
  · exact absurd h hb
  · simp [multiplyRecord_invalid h, mkRepr, h]
  · simp [multiplyRecord_infinity ha hb hiz hi, mkRepr, hiz]
  · simp [multiplyRecord_zero ha hb ia ib hz, mkRepr, infinityTimesZero, ia, ib]
  · have hcls : (numericPath a b (resultSign a b)).cls ≠ .nan := (resolveRange_sign_cls _ _).2
    have hiz : infinityTimesZero a b = false := by
      rcases (finiteNonzero_iff a).1 fa with h | h <;> simp [infinityTimesZero, h]
    simp [multiplyRecord_numeric fa fb, hcls, hiz]

/-- Settles O29: the sign and the NaN entries over all branches of R80, the other entries by their own branch. -/
theorem resultClassAndSignTable : Obligations.ResultClassAndSignTable := by
  intro a b s ha hb na nb
  refine ⟨_, exec_multiply_of_wfx ha hb s, multiplyRecord_sign na nb, ?_, fun h => ?_, fun h => ?_⟩
  · rw [multiplyRecord_cls_eq_nan_iff na nb, infinityTimesZero_iff]
  · rw [multiplyRecord_of_infinity (h.imp (fun ⟨hi, hz⟩ => ⟨hi, nb, hz⟩) (fun ⟨hi, hz⟩ => ⟨hi, na, hz⟩))]
    rfl
  · rw [multiplyRecord_of_zero (h.imp (fun ⟨hz, hi⟩ => ⟨hz, nb, hi⟩) (fun ⟨hz, hi⟩ => ⟨hz, na, hi⟩))]
    rfl

/-! ### Closure over WFX and the corner of R113 (R19, R90) -/

/-- The records of WFX outside WF are told by their significand. -/
theorem wf_eq_false_iff_of_wfx {r : FloatRepr} (h : wfx r = true) :
    wf r = false ↔ r.cls = .subnormal ∧ r.significand = 2 ^ 52 := by
  constructor
  · intro hw
    have hx := (wfx_iff r).1 h
    rw [hw] at hx
    obtain ⟨hc, _, hm, _⟩ := (extendedSubnormal_iff r).1 (hx.resolve_left Bool.false_ne_true)
    exact ⟨hc, hm⟩
  · rintro ⟨_, hm⟩
    rw [Bool.eq_false_iff]
    intro hw
    have hlt := (wf_bounds ((wf_iff r).1 hw).1).2
    omega

theorem underflowShift_eq_one_iff (e : Int) : underflowShift e = 1 ↔ e = -1023 := by
  unfold underflowShift candidateField
  simp only [Config.bias]
  omega

/-- Range resolution answers the extended record in one place only (R113). -/
theorem resolveRange_corner_iff (s : Bool) {r : Scaled} (h1 : 2 ^ 52 ≤ r.sig) (h2 : r.sig < 2 ^ 53) :
    (resolveRange s r).cls = .subnormal ∧ (resolveRange s r).significand = 2 ^ 52 ↔
      r.exp = -1023 ∧ r.sig = 2 ^ 53 - 1 := by
  have hE : candidateField r.exp = r.exp + 1023 := rfl
  by_cases hover : 2047 ≤ candidateField r.exp
  · have hne : r.exp ≠ -1023 := by omega
    simp [resolveRange_overflow s hover, mkRepr, hne]
  · by_cases hunder : candidateField r.exp ≤ 0
    · have hk : 1 ≤ underflowShift r.exp := by unfold underflowShift; omega
      rw [resolveRange_underflow s hunder, underflowResult_eq s h1 h2 hk, ← underflowShift_eq_one_iff,
        ← underflowRound_corner h1 h2 hk]
      split
      next hzero => simp [mkRepr, hzero]
      next => simp [mkRepr]
    · have hne : r.exp ≠ -1023 := by omega
      simp [resolveRange_normal s (Int.not_le.1 hunder) (Int.not_le.1 hover), mkRepr, hne]

/-- Off the numeric path no branch of R80 answers a Subnormal. -/
theorem multiplyRecord_cls_ne_subnormal {a b : FloatRepr} (h : ¬ (finiteNonzero a = true ∧ finiteNonzero b = true)) :
    (multiplyRecord a b).cls ≠ .subnormal := by
  rcases multiply_branches a b with na | ⟨na, nb⟩ | hiz | ⟨na, nb, hiz, hi⟩ | ⟨na, nb, ia, ib, hz⟩ | hf
  · simp [multiplyRecord_nan_left na, na]
  · simp [multiplyRecord_nan_right na nb, nb]
  · simp [multiplyRecord_invalid hiz, mkRepr]
  · simp [multiplyRecord_infinity na nb hiz hi, mkRepr]
  · simp [multiplyRecord_zero na nb ia ib hz, mkRepr]
  · exact absurd hf h

/-- A product is the extended record in the corner of R113 only. -/
theorem multiplyRecord_corner_iff {a b : FloatRepr} (ha : wfx a = true) (hb : wfx b = true) :
    (multiplyRecord a b).cls = .subnormal ∧ (multiplyRecord a b).significand = 2 ^ 52 ↔
      finiteNonzero a = true ∧ finiteNonzero b = true ∧ (roundedProductOf a b).exp = -1023 ∧
        (roundedProductOf a b).sig = 2 ^ 53 - 1 := by
  by_cases hf : finiteNonzero a = true ∧ finiteNonzero b = true
  · obtain ⟨fa, fb⟩ := hf
    obtain ⟨h1, h2, _⟩ := roundedProductOf_bounds ha hb fa fb
    rw [multiplyRecord_numeric fa fb, numericPath, resolveRange_corner_iff _ h1 h2]
    simp only [fa, fb, true_and]
  · exact ⟨fun h => absurd h.1 (multiplyRecord_cls_ne_subnormal hf), fun ⟨fa, fb, _⟩ => absurd ⟨fa, fb⟩ hf⟩

/-- Settles O30: the product is in WFX, and outside WF in the corner of R113 only. -/
theorem productsStayWellFormed : Obligations.ProductsStayWellFormed := by
  intro a b s ha hb
  have hp := multiplyRecord_wfx ha hb
  refine ⟨_, exec_multiply_of_wfx ha hb s, hp, ?_⟩
  rw [wf_eq_false_iff_of_wfx hp, multiplyRecord_corner_iff ha hb, finiteNonzero_iff, finiteNonzero_iff]

/-! ### Exchanging the operands (R91) -/

theorem infinityTimesZero_comm (a b : FloatRepr) : infinityTimesZero a b = infinityTimesZero b a := by
  rw [Bool.eq_iff_iff, infinityTimesZero_iff, infinityTimesZero_iff]
  tauto

theorem numericPath_comm (a b : FloatRepr) (s : Bool) : numericPath a b s = numericPath b a s := by
  rw [numericPath, numericPath, roundedProductOf_comm]

/-- Each branch of R80 is symmetric in the operands but the order in which two NaNs are looked at. -/
theorem multiplyRecord_comm {a b : FloatRepr} (h : ¬ (a.cls = .nan ∧ b.cls = .nan)) :
    multiplyRecord a b = multiplyRecord b a := by
  rcases multiply_branches a b with na | ⟨na, nb⟩ | hiz | ⟨na, nb, hiz, hi⟩ | ⟨na, nb, ia, ib, hz⟩ | ⟨fa, fb⟩
  · rw [multiplyRecord_nan_left na, multiplyRecord_nan_right (fun nb => h ⟨na, nb⟩) na]
  · rw [multiplyRecord_nan_right na nb, multiplyRecord_nan_left nb]
  · rw [multiplyRecord_invalid hiz, multiplyRecord_invalid (infinityTimesZero_comm a b ▸ hiz), resultSign_comm]
  · rw [multiplyRecord_infinity na nb hiz hi,
      multiplyRecord_infinity nb na (infinityTimesZero_comm a b ▸ hiz) hi.symm, resultSign_comm]
  · rw [multiplyRecord_zero na nb ia ib hz, multiplyRecord_zero nb na ib ia hz.symm, resultSign_comm]
  · rw [multiplyRecord_numeric fa fb, multiplyRecord_numeric fb fa, numericPath_comm, resultSign_comm]

/-- Settles O31: both orders complete, and the NaN branches of R80 settle which operand is the result. -/
theorem multiplicationCommutes : Obligations.MultiplicationCommutes := by
  intro a b s ha hb
  rw [← multiplyOperand_iff] at ha hb
  exact ⟨multiplyRecord a b, multiplyRecord b a, exec_multiply_of_operands ha hb s, exec_multiply_of_operands hb ha s,
    multiplyRecord_comm, fun na _ => multiplyRecord_nan_left na, multiplyRecord_nan_right,
    fun na nb => ⟨multiplyRecord_nan_left na, multiplyRecord_nan_left nb⟩⟩

end Sys2Proof.Machine
end

section
/-! The obligations of the numeric family of MULTIPLY (43_multiply_numeric.md R100 to R115): unpacking, the rounding
primitive, the first rounding and its ranges, and the record of each exponent range. -/

namespace Sys2Proof.Machine

/-! ### Unpacking (R100, R101) -/

/-- A shift makes a renormalised significand even, and without one it is 2^52. -/
theorem renormalised_le {m : Nat} (h1 : 1 ≤ m) (h2 : m ≤ 2 ^ 52) : m * 2 ^ (52 - Nat.log2 m) ≤ 2 ^ 53 - 2 := by
  have hlt := (renormalised_bounds h1 h2).2
  cases hn : 52 - Nat.log2 m with
  | zero => omega
  | succ n =>
    rw [hn, Nat.pow_succ, ← Nat.mul_assoc] at hlt
    rw [Nat.pow_succ, ← Nat.mul_assoc]
    omega

theorem log2_le_52 {m : Nat} (h1 : 1 ≤ m) (h2 : m ≤ 2 ^ 52) : Nat.log2 m ≤ 52 :=
  Nat.lt_succ_iff.1 ((Nat.log2_lt (by omega)).2 (by omega))

/-- Settles O32: the two branches of `unpack`, the second by the closed form of the loop of R101. -/
theorem unpackingFollowsTheClass : Obligations.UnpackingFollowsTheClass := by
  refine ⟨fun r h hc => ?_, fun r h hc => ?_⟩
  · obtain ⟨_, _, hm⟩ := wfx_normal h hc
    rw [unpack_normal hc]
    exact ⟨rfl, by omega, by omega⟩
  · obtain ⟨_, h1, h2⟩ := wfx_subnormal h hc
    have hl := log2_le_52 h1 h2
    have htop : 52 ≤ Nat.log2 r.significand ↔ 2 ^ 52 ≤ r.significand := Nat.le_log2 (by omega)
    rw [unpack_subnormal h hc]
    exact ⟨52 - Nat.log2 r.significand, by omega, rfl, rfl, (renormalised_bounds h1 h2).1, renormalised_le h1 h2,
      by omega⟩

/-! ### The rounding primitive (R104) -/

theorem rneShift_nearestEven {v n : Nat} (h : 1 ≤ n) : NearestEven v n (rneShift v n).rounded := by
  obtain ⟨hle, hge⟩ := rneShift_nearest (v := v) h
  refine ⟨hle, hge, fun htie => ?_⟩
  rcases rneShift_cases (v := v) h with ⟨hlt, _⟩ | ⟨_, hr⟩ | ⟨hgt, _⟩
  · omega
  · omega
  · omega

theorem roundUp_iff (v n : Nat) :
    roundUp v n = true ↔ guardBit v n = true ∧ (stickyBit v n = true ∨ v / 2 ^ n % 2 = 1) := by
  rw [roundUp, Bool.and_eq_true, Bool.or_eq_true, retained_odd_iff]

/-- Settles O33: each value by its own lemma, the rounded one by the comparison of the discarded part with a half. -/
theorem roundingPrimitiveIsNearestEven : Obligations.RoundingPrimitiveIsNearestEven := by
  intro v n h
  refine ⟨rneShift_retained v n, guardBit_iff v n, stickyBit_iff v n, ?_, rfl, rneShift_nearestEven h⟩
  rw [rneShift_retained]
  exact roundUp_iff v n

/-! ### The first rounding (R102 to R108) -/

/-- Operands in the domain of MULTIPLY that its dispatch sends to the numeric path (R87, R90). -/
structure NumericOperands (a b : FloatRepr) : Prop where
  wfx_left : wfx a = true
  wfx_right : wfx b = true
  finite_left : finiteNonzero a = true
  finite_right : finiteNonzero b = true

theorem NumericOperands.of_cls {a b : FloatRepr} (ha : wfx a = true) (hb : wfx b = true)
    (ca : a.cls = .normal ∨ a.cls = .subnormal) (cb : b.cls = .normal ∨ b.cls = .subnormal) : NumericOperands a b :=
  ⟨ha, hb, (finiteNonzero_iff a).2 ca, (finiteNonzero_iff b).2 cb⟩

theorem roundedProductOf_eq (a b : FloatRepr) : roundedProductOf a b = roundProduct (productOf a b) (exponentOf a b) :=
  rfl

namespace NumericOperands

variable {a b : FloatRepr} (h : NumericOperands a b)
include h

theorem unpack_left :
    2 ^ 52 ≤ (unpack a).2 ∧ (unpack a).2 < 2 ^ 53 ∧ -1074 ≤ (unpack a).1 ∧ (unpack a).1 ≤ 1023 :=
  unpack_bounds h.wfx_left h.finite_left

theorem unpack_right :
    2 ^ 52 ≤ (unpack b).2 ∧ (unpack b).2 < 2 ^ 53 ∧ -1074 ≤ (unpack b).1 ∧ (unpack b).1 ≤ 1023 :=
  unpack_bounds h.wfx_right h.finite_right

theorem productOf_bounds : 2 ^ 104 ≤ productOf a b ∧ productOf a b ≤ 2 ^ 106 - 2 ^ 54 + 1 := by
  obtain ⟨a1, a2, _⟩ := h.unpack_left
  obtain ⟨b1, b2, _⟩ := h.unpack_right
  exact product_bounds a1 a2 b1 b2

theorem exponentOf_bounds : -2148 ≤ exponentOf a b ∧ exponentOf a b ≤ 2046 := by
  have ha := h.unpack_left
  have hb := h.unpack_right
  unfold exponentOf
  omega

theorem rounded_sig_bounds : 2 ^ 52 ≤ (roundedProductOf a b).sig ∧ (roundedProductOf a b).sig < 2 ^ 53 := by
  obtain ⟨p1, p2⟩ := h.productOf_bounds
  obtain ⟨h1, h2, _⟩ := roundProduct_bounds (exponentOf a b) p1 p2
  exact ⟨h1, h2⟩

theorem rounded_exp_eq :
    (roundedProductOf a b).exp = exponentOf a b ∨ (roundedProductOf a b).exp = exponentOf a b + 1 := by
  obtain ⟨p1, p2⟩ := h.productOf_bounds
  exact (roundProduct_bounds (exponentOf a b) p1 p2).2.2

end NumericOperands

/-- Settles O34: one case of `roundProduct_cases` for each of the three outcomes. -/
theorem firstRoundingFollowsTheRules : Obligations.FirstRoundingFollowsTheRules := by
  intro a b ha hb ca cb
  have hab := NumericOperands.of_cls ha hb ca cb
  obtain ⟨p1, p2⟩ := hab.productOf_bounds
  have hnear (n : Nat) (hn : 1 ≤ n) := rneShift_nearestEven (v := productOf a b) hn
  rw [roundedProductOf_eq]
  refine ⟨p1, p2, fun hp => ⟨_, hnear 52 (by decide), ?_⟩, fun hp => ?_⟩
  · rcases roundProduct_cases (exponentOf a b) p1 p2 with ⟨_, _, _, hlt, _, hr⟩ | ⟨_, _, _, hq, hr⟩ | ⟨hge, _⟩
    · rw [hr]
      exact ⟨fun _ => ⟨rfl, rfl⟩, fun hq => absurd hq hlt.ne⟩
    · rw [hr]
      exact ⟨fun hne => absurd hq hne, fun _ => ⟨rfl, rfl⟩⟩
    · omega
  · rcases roundProduct_cases (exponentOf a b) p1 p2 with ⟨hlt, _⟩ | ⟨hlt, _⟩ | ⟨_, _, _, _, _, hr⟩
    · omega
    · omega
    · rw [hr]
      exact ⟨hnear 53 (by decide), rfl⟩

/-! ### The ranges of R107 -/

/-- The normalising shift brings the product to 53 bits, and the working exponent grows by what it exceeds 52. -/
theorem normShift_cases {p : Nat} (e0 : Int) (h : p < 2 ^ 106) :
    (p < 2 ^ 105 ∧ p.testBit 105 = false ∧ normShift p = 52 ∧ normExponent p e0 = e0) ∨
      (2 ^ 105 ≤ p ∧ p.testBit 105 = true ∧ normShift p = 53 ∧ normExponent p e0 = e0 + 1) := by
  have hb := testBit_105 h
  unfold normShift normExponent
  cases hp : p.testBit 105
  · refine .inl ⟨?_, rfl, rfl, rfl⟩
    rw [hp] at hb
    exact Nat.not_le.1 fun hle => Bool.false_ne_true (hb.2 hle)
  · exact .inr ⟨hb.1 hp, rfl, rfl, rfl⟩

/-- The first rounding of a product (R105, R106): S0 and S1, with their smaller bounds when P[105] = 1. -/
theorem firstRounding_bounds {p : Nat} (h1 : 2 ^ 104 ≤ p) (h2 : p ≤ 2 ^ 106 - 2 ^ 54 + 1) :
    (2 ^ 52 ≤ (rneShift p (normShift p)).retained ∧ (rneShift p (normShift p)).retained ≤ 2 ^ 53 - 1) ∧
      (2 ^ 52 ≤ (rneShift p (normShift p)).rounded ∧ (rneShift p (normShift p)).rounded ≤ 2 ^ 53) ∧
      (p.testBit 105 = true →
        (rneShift p (normShift p)).retained ≤ 2 ^ 53 - 2 ∧ (rneShift p (normShift p)).rounded ≤ 2 ^ 53 - 1) := by
  have hle := rneShift_le p (normShift p)
  have hge := rneShift_ge p (normShift p)
  rw [rneShift_retained]
  rcases normShift_cases 0 (p := p) (by omega) with ⟨hp, hb, hs, _⟩ | ⟨hp, hb, hs, _⟩ <;> rw [hs] at hle hge ⊢
  · exact ⟨by omega, by omega, fun ht => absurd ht (by simp [hb])⟩
  · exact ⟨by omega, by omega, fun _ => by omega⟩

/-- A shift of at least 1 leaves 52 bits of a 53-bit significand (R112). -/
theorem div_two_pow_le_of_shift {sig k : Nat} (h : sig < 2 ^ 53) (hk : 1 ≤ k) : sig / 2 ^ k ≤ 2 ^ 52 - 1 := by
  have hhalf : sig / 2 ^ k ≤ sig / 2 ^ 1 := Nat.div_le_div_left (Nat.pow_le_pow_right (by decide) hk) (by decide)
  omega

/-- Settles O35: the operands by `unpack_bounds`, the roundings by the number of bits they keep. -/
theorem numericIntermediatesKeepTheirRanges : Obligations.NumericIntermediatesKeepTheirRanges := by
  intro a b ha hb ca cb
  have hab := NumericOperands.of_cls ha hb ca cb
  have hua := hab.unpack_left
  have hub := hab.unpack_right
  obtain ⟨p1, p2⟩ := hab.productOf_bounds
  have he0 := hab.exponentOf_bounds
  obtain ⟨s1, s2⟩ := hab.rounded_sig_bounds
  have he := hab.rounded_exp_eq
  have hE : candidateField (roundedProductOf a b).exp = (roundedProductOf a b).exp + 1023 := rfl
  have he1 := normShift_cases (exponentOf a b) (p := productOf a b) (by omega)
  refine ⟨by omega, by omega, ⟨p1, p2⟩, he0, ⟨by omega, firstRounding_bounds p1 p2⟩, by omega, by omega, by omega,
    fun hunder => ?_⟩
  have hk : (underflowShift (roundedProductOf a b).exp : Int) = 1 - candidateField (roundedProductOf a b).exp :=
    Int.toNat_of_nonneg (by omega)
  refine ⟨by omega, by omega, ?_, underflowRound_le s1 s2 (by omega)⟩
  rw [rneShift_retained]
  exact div_two_pow_le_of_shift s2 (by omega)

/-! ### The record of each exponent range (R109 to R114) -/

namespace NumericOperands

variable {a b : FloatRepr} (h : NumericOperands a b)
include h

/-- On the numeric path MULTIPLY shows the rounded product resolved by its exponent range. -/
theorem exec_multiply (s : State) :
    exec (.multiply a b) s =
      .next { s with multiplier := some ⟨a, b, resolveRange (resultSign a b) (roundedProductOf a b)⟩ } := by
  rw [exec_multiply_of_wfx h.wfx_left h.wfx_right, multiplyRecord_numeric h.finite_left h.finite_right]
  rfl

theorem eq_resolveRange {s : State} {p : FloatRepr}
    (hp : exec (.multiply a b) s = .next { s with multiplier := some { a := a, b := b, p := p } }) :
    p = resolveRange (resultSign a b) (roundedProductOf a b) := by
  rw [exec_multiply_eq_next_iff] at hp
  have hown := (exec_multiply_eq_next_iff a b s _).1 (h.exec_multiply s)
  rwa [hp, Except.ok.injEq] at hown

end NumericOperands

/-- Settles O36: the first range of R109. -/
theorem overflowGivesInfinity : Obligations.OverflowGivesInfinity := by
  intro a b s ha hb ca cb hover
  refine ⟨_, (NumericOperands.of_cls ha hb ca cb).exec_multiply s, ?_⟩
  rw [resolveRange_overflow _ hover]
  exact ⟨rfl, rfl, rfl, rfl, mkRepr_infinity_rawBits_toNat _⟩

theorem mkRepr_normal_rawBits_toNat (s : Bool) {e : Int} {m : Nat} (h1 : -1023 ≤ e) (h2 : e ≤ 1023) (hm : m < 2 ^ 52) :
    ((mkRepr .normal s e m).rawBits.toNat : Int) = s.toNat * 2 ^ 63 + (e + 1023) * 2 ^ 52 + m := by
  have hpack := pack_toNat s (field := (e + 1023).toNat) (frac := m) (by omega)
  have hfield : ((e + 1023).toNat : Int) = e + 1023 := Int.toNat_of_nonneg (by omega)
  rw [← hfield]
  exact_mod_cast hpack

/-- Settles O37: the last range of R109, whose significand has its hidden bit taken off. -/
theorem inRangeProductIsNormal : Obligations.InRangeProductIsNormal := by
  intro a b s ha hb ca cb hlow hhigh
  have hab := NumericOperands.of_cls ha hb ca cb
  obtain ⟨s1, s2⟩ := hab.rounded_sig_bounds
  refine ⟨_, hab.exec_multiply s, ?_⟩
  rw [resolveRange_normal _ hlow hhigh]
  refine ⟨rfl, rfl, rfl, ?_, mkRepr_normal_rawBits_toNat _ (by omega) (by omega) (Nat.mod_lt _ (by decide))⟩
  show (roundedProductOf a b).sig % 2 ^ 52 + 2 ^ 52 = (roundedProductOf a b).sig
  omega

/-- The record of the underflow step, field by field (R112, R113). -/
theorem underflowResult_fields (s : Bool) {sig k : Nat} (h1 : 2 ^ 52 ≤ sig) (h2 : sig < 2 ^ 53) (hk : 1 ≤ k) :
    (underflowResult s sig k).sign = s ∧
      (underflowResult s sig k).significand = (rneShift sig k).rounded ∧
      (underflowResult s sig k).rawBits = pack s 0 (rneShift sig k).rounded ∧
      ((rneShift sig k).rounded = 0 → (underflowResult s sig k).cls = .zero ∧ (underflowResult s sig k).exponent = 0) ∧
      ((rneShift sig k).rounded ≠ 0 →
        (underflowResult s sig k).cls = .subnormal ∧ (underflowResult s sig k).exponent = -1022) := by
  rw [underflowResult_eq s h1 h2 hk]
  split
  next hzero =>
    rw [hzero]
    exact ⟨rfl, rfl, rfl, fun _ => ⟨rfl, rfl⟩, fun hne => absurd rfl hne⟩
  next hne => exact ⟨rfl, rfl, rfl, fun hzero => absurd hzero hne, fun _ => ⟨rfl, rfl⟩⟩

/-- The underflow range by its shift amount (R111). -/
theorem resolveRange_of_shift (s : Bool) {r : Scaled} {k : Nat} (hk : 1 ≤ k) (hr : (k : Int) = 1 - (r.exp + 1023)) :
    resolveRange s r = underflowResult s r.sig k := by
  have hE : candidateField r.exp = r.exp + 1023 := rfl
  have hshift : underflowShift r.exp = k := by
    unfold underflowShift
    omega
  rw [resolveRange_underflow s (by omega), hshift]

/-- Settles O38: the fields by `underflowResult_fields`, the values by the shift amount. -/
theorem underflowRoundsASecondTime : Obligations.UnderflowRoundsASecondTime := by
  intro a b s k ha hb ca cb hk hke
  have hab := NumericOperands.of_cls ha hb ca cb
  obtain ⟨s1, s2⟩ := hab.rounded_sig_bounds
  obtain ⟨hsign, hsig, hraw, hzero, hsub⟩ := underflowResult_fields (resultSign a b) s1 s2 hk
  have hcases := underflowRound_cases s1 s2 hk
  refine ⟨_, _, hab.exec_multiply s, rneShift_nearestEven hk, ?_⟩
  rw [resolveRange_of_shift _ hk hke]
  refine ⟨hsign, hsig, ?_, hzero, hsub, by omega, by omega, by omega, by omega⟩
  rw [hraw, pack_toNat _ (by omega), Nat.zero_mul, Nat.add_zero]
  rfl

/-- Settles O39: the corner by `underflowRound_corner`, its word by the carry into the exponent field. -/
theorem underflowCornerGivesTheExtendedRecord : Obligations.UnderflowCornerGivesTheExtendedRecord := by
  intro a b s ha hb ca cb hunder
  have hab := NumericOperands.of_cls ha hb ca cb
  obtain ⟨s1, s2⟩ := hab.rounded_sig_bounds
  obtain ⟨k, hke⟩ : ∃ k : Nat, (k : Int) = 1 - ((roundedProductOf a b).exp + 1023) :=
    ⟨_, Int.toNat_of_nonneg (by omega)⟩
  have hk : 1 ≤ k := by omega
  obtain ⟨hsign, hsig, hraw, _, hsub⟩ := underflowResult_fields (resultSign a b) s1 s2 hk
  refine ⟨_, hab.exec_multiply s, ?_⟩
  rw [resolveRange_of_shift _ hk hke, hsig, ← hke]
  refine ⟨?_, fun ht => ?_⟩
  · rw [underflowRound_corner s1 s2 hk, Nat.cast_eq_one]
  · obtain ⟨hcls, hexp⟩ := hsub (by omega)
    refine ⟨hcls, hsign, hexp, ?_⟩
    rw [hraw, ht, pack_carry_eq_ite]
    rfl

/-- Settles O40: the product is in WFX, and such a record composes to its own word. -/
theorem productsComposeToTheirRawBits : Obligations.ProductsComposeToTheirRawBits := by
  intro a b s ha hb
  exact ⟨_, _, exec_multiply_of_wfx ha hb s, rfl,
    (exec_compose_eq_next_iff _ _ _).2 (compose_multiplyRecord ha hb)⟩

end Sys2Proof.Machine
end

section
/-! The obligations of the numeric family of MULTIPLY that speak of exact values (43_multiply_numeric.md R110, R116,
R117): the operands' product as a rational, the nearest double, the overflow threshold, and double rounding. -/

namespace Sys2Proof.Machine

/-! ### Nearest-even values -/

section
variable {v n q : Nat}

/-- Exactly half a unit from the value, on either side, the nearest-even value is even. -/
theorem NearestEven.even_of_half (h : NearestEven v n q)
    (ht : 2 * v = 2 * (q * 2 ^ n) + 2 ^ n ∨ 2 * v + 2 ^ n = 2 * (q * 2 ^ n)) : q % 2 = 0 := by
  obtain ⟨_, _, htie⟩ := h
  have hpos := Nat.two_pow_pos n
  have htie' (j r : Nat) (hr : 2 * r = 2 ^ n) (hv : v = r + j * 2 ^ n) : q % 2 = 0 := by
    refine htie ?_
    rw [hv, Nat.add_mul_mod_self_right, Nat.mod_eq_of_lt (by omega), hr]
  rcases ht with hup | hdown
  · exact htie' q (v - q * 2 ^ n) (by omega) (by omega)
  · cases q with
    | zero => rfl
    | succ j =>
      rw [Nat.add_mul] at hdown
      exact htie' j (v - j * 2 ^ n) (by omega) (by omega)

/-- A value less than half a unit away is the nearest-even one. -/
theorem NearestEven.eq_of_lt {c : Nat} (h : NearestEven v n q) (h1 : 2 * (c * 2 ^ n) < 2 * v + 2 ^ n)
    (h2 : 2 * v < 2 * (c * 2 ^ n) + 2 ^ n) : q = c := by
  obtain ⟨hle, hge, _⟩ := h
  rcases Nat.lt_trichotomy q c with hlt | heq | hgt
  · have := Nat.mul_le_mul_right (2 ^ n) (Nat.succ_le_of_lt hlt)
    rw [Nat.succ_mul] at this
    omega
  · exact heq
  · have := Nat.mul_le_mul_right (2 ^ n) (Nat.succ_le_of_lt hgt)
    rw [Nat.succ_mul] at this
    omega

/-- No multiple of 2^n is closer than the nearest-even one; when another is as close, the nearest-even one is even. -/
theorem NearestEven.closest (h : NearestEven v n q) (y : ℤ) :
    |(q : ℤ) * 2 ^ n - v| ≤ |y * 2 ^ n - v| ∧ (|(q : ℤ) * 2 ^ n - v| = |y * 2 ^ n - v| → y = q ∨ q % 2 = 0) := by
  have heven := h.even_of_half
  obtain ⟨hle, hge, _⟩ := h
  zify at hle hge heven
  have hpos : (0 : ℤ) < 2 ^ n := by positivity
  have hunit : 2 * |(q : ℤ) * 2 ^ n - v| ≤ 2 ^ n := by
    rcases abs_cases ((q : ℤ) * 2 ^ n - v) with ⟨hq, _⟩ | ⟨hq, _⟩ <;> omega
  rcases lt_trichotomy y q with hlt | heq | hgt
  · have hstep := Int.mul_le_mul_of_nonneg_right (Int.add_one_le_of_lt hlt) hpos.le
    rw [add_mul, one_mul] at hstep
    have hfar := neg_le_abs (y * 2 ^ n - v)
    exact ⟨by omega, fun he => .inr (by omega)⟩
  · exact ⟨by rw [heq], fun _ => .inl heq⟩
  · have hstep := Int.mul_le_mul_of_nonneg_right (Int.add_one_le_of_lt hgt) hpos.le
    rw [add_mul, one_mul] at hstep
    have hfar := le_abs_self (y * 2 ^ n - v)
    exact ⟨by omega, fun he => .inr (by omega)⟩

end

theorem NearestEven.not_lt {v n q q' : Nat} (h : NearestEven v n q) (h' : NearestEven v n q') : ¬ q < q' := by
  intro hlt
  have hq := h.even_of_half
  have hq' := h'.even_of_half
  obtain ⟨_, hge, _⟩ := h
  obtain ⟨hle, _, _⟩ := h'
  have hpos := Nat.two_pow_pos n
  have hstep := Nat.mul_le_mul_right (2 ^ n) (Nat.succ_le_of_lt hlt)
  rw [Nat.succ_mul] at hstep
  have htwo : q + 2 ≤ q' := by omega
  have hstep2 := Nat.mul_le_mul_right (2 ^ n) htwo
  rw [Nat.add_mul] at hstep2
  omega

theorem NearestEven.unique {v n q q' : Nat} (h : NearestEven v n q) (h' : NearestEven v n q') : q = q' :=
  Nat.le_antisymm (Nat.not_lt.1 (h'.not_lt h)) (Nat.not_lt.1 (h.not_lt h'))

/-- Scaling the value by a power of two scales the unit. -/
theorem NearestEven.scale {v n q : Nat} (h : NearestEven v n q) (m : Nat) : NearestEven (v * 2 ^ m) (m + n) q := by
  obtain ⟨hle, hge, htie⟩ := h
  have hpos := Nat.two_pow_pos m
  have hunit : 2 ^ (m + n) = 2 ^ n * 2 ^ m := by rw [Nat.pow_add, Nat.mul_comm]
  unfold NearestEven
  rw [hunit, Nat.mul_mod_mul_right]
  refine ⟨?_, ?_, fun ht => htie ?_⟩
  · linarith [Nat.mul_le_mul_right (2 ^ m) hle]
  · linarith [Nat.mul_le_mul_right (2 ^ m) hge]
  · exact Nat.eq_of_mul_eq_mul_right hpos (by linarith)

/-! ### The rational a record denotes (R43) -/

/-- The sign of a record as a factor. -/
def signFactor (s : Bool) : ℚ := if s then -1 else 1

theorem realValue_eq (r : FloatRepr) :
    realValue r = signFactor r.sign * (magnitude r * 2 ^ (r.exponent - 52)) := mul_assoc _ _ _

theorem signFactor_xor (s t : Bool) : signFactor (s ^^ t) = signFactor s * signFactor t := by
  cases s <;> cases t <;> simp [signFactor]

/-- A sign factor undoes itself. -/
theorem signFactor_mul_cancel (s : Bool) (x : ℚ) : signFactor s * (signFactor s * x) = x := by
  cases s <;> simp [signFactor]

theorem abs_signFactor (s : Bool) : |signFactor s| = 1 := by
  cases s <;> simp [signFactor]

theorem magnitude_lt {r : FloatRepr} (h : fieldRanges r = true) : magnitude r < 2 ^ 53 := by
  obtain ⟨_, hm⟩ := wf_bounds h
  unfold magnitude
  split <;> omega

theorem abs_realValue (r : FloatRepr) : |realValue r| = magnitude r * 2 ^ (r.exponent - 52) := by
  have hnonneg : (0 : ℚ) ≤ magnitude r * 2 ^ (r.exponent - 52) := by positivity
  rw [realValue_eq, abs_mul, abs_signFactor, one_mul, abs_of_nonneg hnonneg]

theorem two_zpow_add_natCast (e : Int) (i : Nat) : (2 : ℚ) ^ (e + i) = 2 ^ i * 2 ^ e := by
  rw [zpow_add₀ two_ne_zero, zpow_natCast, mul_comm]

/-- Unpacking keeps the magnitude an operand denotes (R100, R101). -/
theorem unpack_value {r : FloatRepr} (h : wfx r = true) (hc : finiteNonzero r = true) :
    (magnitude r : ℚ) * 2 ^ (r.exponent - 52) = (unpack r).2 * 2 ^ ((unpack r).1 - 52) := by
  rcases (finiteNonzero_iff r).1 hc with hn | hs
  · rw [unpack_normal hn, magnitude, hn]
  · obtain ⟨hexp, _, _⟩ := wfx_subnormal h hs
    rw [unpack_subnormal h hs, magnitude, hs, hexp]
    generalize 52 - Nat.log2 r.significand = n
    have hsplit : (2 : ℚ) ^ (-1022 - 52 : ℤ) = 2 ^ n * 2 ^ (-1022 - (n : ℤ) - 52) := by
      rw [← two_zpow_add_natCast]
      congr 1
      ring
    rw [hsplit]
    push_cast
    ring

/-- The exact product as a rational: sign, magnitude, and the exponent sum (R116). -/
theorem NumericOperands.realValue_mul {a b : FloatRepr} (h : NumericOperands a b) :
    realValue a * realValue b = signFactor (resultSign a b) * (productOf a b * 2 ^ (exponentOf a b - 104)) := by
  have hexp : (2 : ℚ) ^ (exponentOf a b - 104) = 2 ^ ((unpack a).1 - 52) * 2 ^ ((unpack b).1 - 52) := by
    rw [← zpow_add₀ two_ne_zero, exponentOf]
    congr 1
    ring
  rw [realValue_eq, realValue_eq, unpack_value h.wfx_left h.finite_left, unpack_value h.wfx_right h.finite_right, hexp,
    resultSign, signFactor_xor, productOf]
  push_cast
  ring

theorem NumericOperands.abs_realValue_mul {a b : FloatRepr} (h : NumericOperands a b) :
    |realValue a * realValue b| = productOf a b * 2 ^ (exponentOf a b - 104) := by
  have hnonneg : (0 : ℚ) ≤ productOf a b * 2 ^ (exponentOf a b - 104) := by positivity
  rw [h.realValue_mul, abs_mul, abs_signFactor, one_mul, abs_of_nonneg hnonneg]

/-- Settles O41: `NumericOperands.realValue_mul`. -/
theorem exactProductAsARational : Obligations.ExactProductAsARational := by
  intro a b ha hb ca cb
  rw [(NumericOperands.of_cls ha hb ca cb).realValue_mul, ← mul_assoc]
  rfl

/-! ### The overflow threshold (R110) -/

/-- Where a scaled product lies against 2^1024 - 2^970: only the exponent 1023 needs the product looked at. -/
theorem overflowThreshold_le_iff {p : Nat} {e : Int} (h1 : 2 ^ 104 ≤ p) (h2 : p < 2 ^ 106 - 2 ^ 52) :
    (2 : ℚ) ^ (1024 : Nat) - 2 ^ (970 : Nat) ≤ p * 2 ^ (e - 104) ↔ 1024 ≤ e ∨ e = 1023 ∧ 2 ^ 105 - 2 ^ 51 ≤ p := by
  have hthreshold : (2 : ℚ) ^ (1024 : Nat) - 2 ^ (970 : Nat) = (2 ^ 105 - 2 ^ 51) * 2 ^ (919 : ℤ) := by
    rw [sub_mul]
    congr 1
    · exact (pow_add 2 105 919)
    · exact (pow_add 2 51 919)
  have hunit : (0 : ℚ) < 2 ^ (919 : ℤ) := by positivity
  have hp1 : (2 : ℚ) ^ 104 ≤ p := by exact_mod_cast h1
  have hp2 : (p : ℚ) < 2 ^ 106 - 2 ^ 52 := by
    rw [lt_sub_iff_add_lt]
    exact_mod_cast Nat.add_lt_of_lt_sub h2
  rw [hthreshold]
  rcases lt_trichotomy e 1023 with hlow | rfl | hhigh
  · have hmono : (2 : ℚ) ^ (e - 104) * 2 ≤ 2 ^ (919 : ℤ) := by
      rw [← zpow_add_one₀ two_ne_zero]
      exact zpow_le_zpow_right₀ one_le_two (by omega)
    refine iff_of_false (not_le.2 ?_) (by omega)
    calc
      (p : ℚ) * 2 ^ (e - 104) < (2 ^ 106 - 2 ^ 52) * 2 ^ (e - 104) := by gcongr
      _ = (2 ^ 105 - 2 ^ 51) * (2 ^ (e - 104) * 2) := by ring
      _ ≤ (2 ^ 105 - 2 ^ 51) * 2 ^ (919 : ℤ) := mul_le_mul_of_nonneg_left hmono (by norm_num)
  · have hcast : (2 : ℚ) ^ 105 - 2 ^ 51 ≤ p ↔ 2 ^ 105 - 2 ^ 51 ≤ p := by
      rw [sub_le_iff_le_add, Nat.sub_le_iff_le_add]
      exact_mod_cast Iff.rfl
    rw [show (1023 : ℤ) - 104 = 919 from rfl, mul_le_mul_iff_left₀ hunit, hcast]
    omega
  · have hmono : (2 : ℚ) ^ (919 : ℤ) * 2 ≤ 2 ^ (e - 104) := by
      rw [← zpow_add_one₀ two_ne_zero]
      exact zpow_le_zpow_right₀ one_le_two (by omega)
    refine iff_of_true ?_ (by omega)
    calc
      (2 ^ 105 - 2 ^ 51 : ℚ) * 2 ^ (919 : ℤ) ≤ 2 ^ 105 * 2 ^ (919 : ℤ) := by gcongr; norm_num
      _ = 2 ^ 104 * (2 ^ (919 : ℤ) * 2) := by ring
      _ ≤ p * 2 ^ (e - 104) := by gcongr

/-- The rounded exponent leaves the range of finite values where the product reaches the threshold: a rounding
overflow carries from half a unit below 2^105 on. -/
theorem roundProduct_exp_ge_iff {p : Nat} (e0 : Int) (h1 : 2 ^ 104 ≤ p) (h2 : p ≤ 2 ^ 106 - 2 ^ 54 + 1) :
    1024 ≤ (roundProduct p e0).exp ↔ 1024 ≤ e0 ∨ e0 = 1023 ∧ 2 ^ 105 - 2 ^ 51 ≤ p := by
  have hround := rneShift_cases (v := p) (n := 52) (by decide)
  rcases roundProduct_cases e0 h1 h2 with ⟨hp, _, _, hlt, _, hr⟩ | ⟨hp, _, _, hq, hr⟩ | ⟨hp, _, _, _, _, hr⟩
  · have hbelow : p < 2 ^ 105 - 2 ^ 51 := by omega
    rw [hr]
    simp only
    omega
  · have hreach : 2 ^ 105 - 2 ^ 51 ≤ p := by omega
    rw [hr]
    simp only
    omega
  · rw [hr]
    simp only
    omega

/-- Range resolution answers Infinity exactly on overflow (R109, R110). -/
theorem resolveRange_cls_infinity_iff (s : Bool) (r : Scaled) :
    (resolveRange s r).cls = .infinity ↔ 1024 ≤ r.exp := by
  have hE : candidateField r.exp = r.exp + 1023 := rfl
  unfold resolveRange underflowResult
  split_ifs with hover hunder
  · exact iff_of_true rfl (by omega)
  all_goals exact iff_of_false nofun (by omega)

/-- Settles O43: both sides are the same condition on the product and the exponent sum. -/
theorem overflowThreshold : Obligations.OverflowThreshold := by
  intro a b p s ha hb ca cb hp
  have hab := NumericOperands.of_cls ha hb ca cb
  obtain ⟨p1, p2⟩ := hab.productOf_bounds
  rw [hab.eq_resolveRange hp, resolveRange_cls_infinity_iff, roundedProductOf_eq, roundProduct_exp_ge_iff _ p1 p2,
    hab.abs_realValue_mul, overflowThreshold_le_iff p1 (by omega)]

end Sys2Proof.Machine
end

section
/-! The obligations of the numeric family of MULTIPLY about IEEE-754 rounding (43_multiply_numeric.md R117): a Normal
result is the nearest double, and double rounding into the subnormal range. -/

namespace Sys2Proof.Machine

/-! ### The rounded product as a multiple of the first rounding's unit -/

/-- The rounding overflow changes the form of the rounded value and not the value: with the operands' own scaling it is
the significand at some shift `m`, which is also what the working exponent grew by. -/
theorem roundProduct_value {p : Nat} (e0 : Int) (h1 : 2 ^ 104 ≤ p) (h2 : p ≤ 2 ^ 106 - 2 ^ 54 + 1) :
    ∃ m : Nat, normShift p ≤ m ∧ (roundProduct p e0).exp = e0 + m - 52 ∧
      (roundProduct p e0).sig * 2 ^ m = (rneShift p (normShift p)).rounded * 2 ^ normShift p ∧
      ((rneShift p (normShift p)).rounded % 2 = 0 → (roundProduct p e0).sig % 2 = 0) := by
  rcases roundProduct_cases e0 h1 h2 with ⟨_, hs, _, _, _, hr⟩ | ⟨_, hs, _, hq, hr⟩ | ⟨_, hs, _, _, _, hr⟩ <;>
    rw [hs, hr] <;> dsimp only
  · exact ⟨52, le_rfl, by omega, rfl, id⟩
  · rw [hq]
    exact ⟨53, by omega, by omega, Nat.mul_comm _ _, fun _ => by omega⟩
  · exact ⟨53, le_rfl, by omega, rfl, id⟩

theorem normShift_pos (p : Nat) : 1 ≤ normShift p := by
  unfold normShift
  split <;> decide

/-! ### Double rounding (R112, R117) -/

/-- A rounding is inexact when guard or sticky is set. -/
theorem guard_or_sticky_iff {v n : Nat} (h : 1 ≤ n) :
    (rneShift v n).guard = true ∨ (rneShift v n).sticky = true ↔ v % 2 ^ n ≠ 0 := by
  obtain ⟨m, rfl⟩ : ∃ m, n = m + 1 := ⟨n - 1, by omega⟩
  have hg : guardBit v (m + 1) = true ↔ v / 2 ^ m % 2 = 1 := guardBit_iff v (m + 1)
  have hs : stickyBit v (m + 1) = true ↔ v % 2 ^ m ≠ 0 := stickyBit_iff v (m + 1)
  change guardBit v (m + 1) = true ∨ stickyBit v (m + 1) = true ↔ _
  rw [hg, hs, (discarded_eq v m).1]
  rcases Nat.mod_two_eq_zero_or_one (v / 2 ^ m) with hbit | hbit <;> rw [hbit] <;> omega

/-- Whether a rounding was exact, and if not, on which side of its value it left the number. -/
theorem rneShift_side {v n : Nat} (h : 1 ≤ n) :
    ((rneShift v n).up = true ∧ v % 2 ^ n ≠ 0 ∧ v < (rneShift v n).rounded * 2 ^ n) ∨
      ((rneShift v n).up = false ∧ v % 2 ^ n ≠ 0 ∧ (rneShift v n).rounded * 2 ^ n < v) ∨
      (v % 2 ^ n = 0 ∧ v = (rneShift v n).rounded * 2 ^ n) := by
  have hr : (rneShift v n).rounded = v / 2 ^ n + (rneShift v n).up.toNat := by
    rw [← rneShift_retained]
    rfl
  have hd := Nat.div_add_mod' v (2 ^ n)
  rw [hr]
  cases hup : (rneShift v n).up with
  | true =>
    have hinexact := (guard_or_sticky_iff h).1 (.inl ((roundUp_iff v n).1 hup).1)
    refine .inl ⟨rfl, hinexact, ?_⟩
    rw [Bool.toNat_true, Nat.succ_mul]
    omega
  | false =>
    rw [Bool.toNat_false, Nat.add_zero]
    by_cases hexact : v % 2 ^ n = 0
    · exact .inr (.inr ⟨hexact, by omega⟩)
    · exact .inr (.inl ⟨rfl, hexact, by omega⟩)

/-- What one rounding at `m + k` gives by what the rounding at `m` to `sig` and then at `k` saw: the same value, but
at a tie of the second rounding the side on which the first left the value. -/
theorem once_rounded_eq {v sig m k u : Nat} (hk : 1 ≤ k) (hle : 2 * (sig * 2 ^ m) ≤ 2 * v + 2 ^ m)
    (hge : 2 * v ≤ 2 * (sig * 2 ^ m) + 2 ^ m) (hu : NearestEven v (m + k) u) :
    (2 * (sig % 2 ^ k) ≠ 2 ^ k ∨ v = sig * 2 ^ m → u = (rneShift sig k).rounded) ∧
      (2 * (sig % 2 ^ k) = 2 ^ k → v < sig * 2 ^ m → u = sig / 2 ^ k) ∧
      (2 * (sig % 2 ^ k) = 2 ^ k → sig * 2 ^ m < v → u = sig / 2 ^ k + 1) := by
  obtain ⟨half, hhalf⟩ : ∃ half, 2 ^ k = 2 * half := ⟨2 ^ (k - 1), by rw [← Nat.pow_succ']; congr 1; omega⟩
  have hpos := Nat.two_pow_pos m
  have hhalfpos : 0 < half := by
    have := Nat.two_pow_pos k
    omega
  -- A tie of the second rounding that the first reached exactly is a tie of the one rounding too.
  have hexact (hv : v = sig * 2 ^ m) : u = (rneShift sig k).rounded :=
    hu.unique (hv ▸ (rneShift_nearestEven hk).scale m)
  have hround := rneShift_cases (v := sig) hk
  have hmod := Nat.mod_lt sig (Nat.two_pow_pos k)
  -- Everything in units of half the last place, `half * 2 ^ m`.
  have hvalue : sig * 2 ^ m = 2 * (sig / 2 ^ k * (half * 2 ^ m)) + sig % 2 ^ k * 2 ^ m := by
    conv_lhs => rw [← Nat.div_add_mod' sig (2 ^ k)]
    rw [hhalf]
    ring
  have hunit : 2 ^ (m + k) = 2 * (half * 2 ^ m) := by rw [Nat.pow_add, hhalf]; ring
  have hmultiple (c : Nat) : 2 * (c * 2 ^ (m + k)) = 4 * (c * (half * 2 ^ m)) := by
    rw [hunit]
    ring
  have hdown := hu.eq_of_lt (c := sig / 2 ^ k)
  have hup := hu.eq_of_lt (c := sig / 2 ^ k + 1)
  have hstep : 2 ^ m ≤ half * 2 ^ m := Nat.le_mul_of_pos_left _ hhalfpos
  rw [hmultiple, hunit] at hdown hup
  rw [Nat.add_mul, Nat.one_mul] at hup
  rw [hhalf] at hmod hround hvalue hdown hup ⊢
  generalize sig % (2 * half) = r at *
  generalize sig / (2 * half) = t at *
  -- The first rounding moved the value by at most 2^m / 2, so it crosses no half that `sig` is not on.
  rcases Nat.lt_trichotomy r half with hr | rfl | hr
  · have hgap := Nat.mul_le_mul_right (2 ^ m) (Nat.succ_le_of_lt hr)
    rw [Nat.succ_mul] at hgap
    exact ⟨fun _ => by omega, fun _ => by omega, fun _ => by omega⟩
  · refine ⟨fun hv => hexact (hv.resolve_left (by omega)), fun _ hlt => hdown (by omega) (by omega),
      fun _ hgt => hup (by omega) (by omega)⟩
  · have hgap := Nat.mul_le_mul_right (2 ^ m) (Nat.succ_le_of_lt hr)
    have htop := Nat.mul_le_mul_right (2 ^ m) hmod.le
    rw [Nat.succ_mul] at hgap
    rw [Nat.mul_assoc] at htop
    exact ⟨fun _ => by omega, fun _ => by omega, fun _ => by omega⟩

/-- Where rounding at `n` and then at `k` differs from one rounding, and how: `sig` at `m` is the first rounding's value,
in the form in which the second takes it (R117). -/
theorem doubleRounding_differs_iff {v n sig m k u : Nat} (hn : 1 ≤ n) (hk : 1 ≤ k) (hm : n ≤ m)
    (hvalue : sig * 2 ^ m = (rneShift v n).rounded * 2 ^ n) (hu : NearestEven v (m + k) u) :
    let first := rneShift v n
    let second := rneShift sig k
    let tie := (first.guard = true ∨ first.sticky = true) ∧ second.guard = true ∧ second.sticky = false
    (second.rounded ≠ u ↔ tie ∧ (first.up = true ∧ second.retained % 2 = 1 ∨
      first.up = false ∧ second.retained % 2 = 0)) ∧
    (tie → first.up = true → second.retained % 2 = 1 → second.rounded = second.retained + 1 ∧ u = second.retained) ∧
    (tie → first.up = false → second.retained % 2 = 0 → second.rounded = second.retained ∧ u = second.retained + 1) := by
  have hunit : 2 ^ n ≤ 2 ^ m := Nat.pow_le_pow_right (by decide) hm
  obtain ⟨hle, hge⟩ := rneShift_nearest (v := v) hn
  have hside := rneShift_side (v := v) hn
  rw [← hvalue] at hle hge hside
  obtain ⟨hsame, hbelow, habove⟩ := once_rounded_eq (sig := sig) hk (by omega) (by omega) hu
  have hround := rneShift_cases (v := sig) hk
  have hhalf : (rneShift sig k).guard = true ∧ (rneShift sig k).sticky = false ↔ 2 * (sig % 2 ^ k) = 2 ^ k :=
    (guard_sticky_iff hk).2
  dsimp only
  rw [guard_or_sticky_iff hn, rneShift_retained, hhalf]
  by_cases htie : 2 * (sig % 2 ^ k) = 2 ^ k
  · have heven : (rneShift sig k).rounded = sig / 2 ^ k + sig / 2 ^ k % 2 := by omega
    rcases hside with ⟨hup, hinexact, hlt⟩ | ⟨hup, hinexact, hgt⟩ | ⟨hexact, heq⟩
    · simp [hup, hinexact, htie, heven, hbelow htie hlt]
    · simp [hup, hinexact, htie, heven, habove htie hgt]
    · simp [hexact, hsame (.inr heq)]
  · simp [htie, hsame (.inl htie)]

/-- Settles O44: the exact product and the rounded one meet at the shift of `roundProduct_value`, where
`doubleRounding_differs_iff` applies. -/
theorem doubleRoundingDiffersExactlyAtInexactTies : Obligations.DoubleRoundingDiffersExactlyAtInexactTies := by
  intro a b p s k u ha hb ca cb hk hke hu hp
  have hab := NumericOperands.of_cls ha hb ca cb
  obtain ⟨p1, p2⟩ := hab.productOf_bounds
  obtain ⟨s1, s2⟩ := hab.rounded_sig_bounds
  obtain ⟨m, hm, hexp, hvalue, _⟩ := roundProduct_value (exponentOf a b) p1 p2
  rw [← roundedProductOf_eq] at hexp hvalue
  have hsig : p.significand = (rneShift (roundedProductOf a b).sig k).rounded := by
    rw [hab.eq_resolveRange hp, resolveRange_of_shift _ hk hke]
    exact (underflowResult_fields _ s1 s2 hk).2.1
  have hgrid : (-970 - exponentOf a b).toNat = m + k := by omega
  rw [hgrid] at hu
  rw [hsig]
  exact doubleRounding_differs_iff (normShift_pos _) hk hm hvalue hu

/-! ### The nearest double (R117) -/

/-- A finite value is below a power of two, or a multiple of the unit 52 places below that power. -/
theorem realValue_below_or_multiple {r : FloatRepr} (h : fieldRanges r = true) (s : Bool) (n : Nat) (e : Int) :
    |signFactor s * realValue r| < 2 ^ 52 * 2 ^ n * 2 ^ e ∨ ∃ z : ℤ, signFactor s * realValue r = z * (2 ^ n * 2 ^ e) := by
  have hm : (magnitude r : ℚ) < 2 ^ 53 := by exact_mod_cast magnitude_lt h
  rw [abs_mul, abs_signFactor, one_mul, abs_realValue]
  rcases lt_or_ge r.exponent (e + n + 52) with hlow | hhigh
  · left
    have hunit : (2 : ℚ) ^ (r.exponent - 52) * 2 ≤ 2 ^ n * 2 ^ e := by
      rw [← zpow_add_one₀ two_ne_zero, ← two_zpow_add_natCast]
      exact zpow_le_zpow_right₀ one_le_two (by omega)
    calc
      (magnitude r : ℚ) * 2 ^ (r.exponent - 52) < 2 ^ 53 * 2 ^ (r.exponent - 52) := by gcongr
      _ = 2 ^ 52 * (2 ^ (r.exponent - 52) * 2) := by ring
      _ ≤ 2 ^ 52 * (2 ^ n * 2 ^ e) := by gcongr
      _ = 2 ^ 52 * 2 ^ n * 2 ^ e := by ring
  · right
    obtain ⟨d, hd⟩ := Int.eq_ofNat_of_zero_le (Int.sub_nonneg.2 hhigh)
    have hunit : (2 : ℚ) ^ (r.exponent - 52) = 2 ^ d * (2 ^ n * 2 ^ e) := by
      rw [← two_zpow_add_natCast, ← two_zpow_add_natCast]
      congr 1
      omega
    refine ⟨(if s then -1 else 1) * (if r.sign then -1 else 1) * magnitude r * 2 ^ d, ?_⟩
    rw [realValue_eq, hunit, signFactor, signFactor]
    push_cast
    ring

/-- A nearest-even multiple of 2^n, scaled, is as close as any number that is below the value's leading power of two or
is itself a scaled multiple; when another is as close, the nearest-even one is even. -/
theorem NearestEven.closest_scaled {v n q : Nat} (h : NearestEven v n q) (hv : 2 ^ 52 * 2 ^ n ≤ v) {unit y : ℚ}
    (hunit : 0 < unit) (hy : |y| < 2 ^ 52 * 2 ^ n * unit ∨ ∃ z : ℤ, y = z * (2 ^ n * unit)) :
    |q * 2 ^ n * unit - v * unit| ≤ |y - v * unit| ∧
      (|q * 2 ^ n * unit - v * unit| = |y - v * unit| → y = q * 2 ^ n * unit ∨ q % 2 = 0) := by
  have hscale (z : ℤ) : |(z : ℚ) * 2 ^ n * unit - v * unit| = ((|z * 2 ^ n - v| : ℤ) : ℚ) * unit := by
    rw [← sub_mul, abs_mul, abs_of_pos hunit]
    push_cast
    rfl
  have hq := hscale q
  rw [Int.cast_natCast] at hq
  rw [hq]
  rcases hy with hlow | ⟨z, rfl⟩
  · have hlead := (h.closest (2 ^ 52)).1
    have hv' : (2 : ℤ) ^ 52 * 2 ^ n ≤ v := by exact_mod_cast hv
    rw [abs_of_nonpos (by omega : (2 : ℤ) ^ 52 * 2 ^ n - v ≤ 0)] at hlead
    have hfar := abs_sub_abs_le_abs_sub (v * unit) y
    rw [abs_sub_comm, abs_of_nonneg (by positivity : 0 ≤ v * unit)] at hfar
    have hlt : ((|q * 2 ^ n - v| : ℤ) : ℚ) * unit < |y - v * unit| :=
      calc
        ((|q * 2 ^ n - v| : ℤ) : ℚ) * unit ≤ ((-(2 ^ 52 * 2 ^ n - v) : ℤ) : ℚ) * unit := by gcongr
        _ = v * unit - 2 ^ 52 * 2 ^ n * unit := by push_cast; ring
        _ < v * unit - |y| := by gcongr
        _ ≤ |y - v * unit| := hfar
    exact ⟨hlt.le, fun he => absurd he hlt.ne⟩
  · obtain ⟨hle, htie⟩ := h.closest z
    rw [← mul_assoc, hscale, mul_le_mul_iff_left₀ hunit, mul_left_inj' hunit.ne', Int.cast_le, Int.cast_inj]
    refine ⟨hle, fun he => (htie he).imp_left fun hz => ?_⟩
    rw [hz, Int.cast_natCast]

/-- A distance from a signed value is one from its magnitude. -/
theorem abs_sub_signFactor_mul (s : Bool) (x y : ℚ) : |x - signFactor s * y| = |signFactor s * x - y| :=
  calc
    |x - signFactor s * y| = |signFactor s * (x - signFactor s * y)| := by rw [abs_mul, abs_signFactor, one_mul]
    _ = |signFactor s * x - y| := by rw [mul_sub, signFactor_mul_cancel]

theorem underflowResult_cls_ne_normal (s : Bool) (sig k : Nat) : (underflowResult s sig k).cls ≠ .normal := by
  unfold underflowResult
  split_ifs <;> simp [mkRepr]

/-- Range resolution answers a Normal record in the last range only (R109, R114). -/
theorem resolveRange_eq_of_cls_normal {s : Bool} {r : Scaled} (h : (resolveRange s r).cls = .normal) :
    resolveRange s r = mkRepr .normal s r.exp (r.sig % 2 ^ 52) := by
  by_cases hover : 2047 ≤ candidateField r.exp
  · rw [resolveRange_overflow s hover] at h
    cases h
  · by_cases hunder : candidateField r.exp ≤ 0
    · rw [resolveRange_underflow s hunder] at h
      exact absurd h (underflowResult_cls_ne_normal s _ _)
    · exact resolveRange_normal s (Int.not_le.1 hunder) (Int.not_le.1 hover)

/-- The value of a Normal record with the hidden bit put back. -/
theorem realValue_mkRepr_normal (s : Bool) (e : Int) {sig : Nat} (h1 : 2 ^ 52 ≤ sig) (h2 : sig < 2 ^ 53) :
    realValue (mkRepr .normal s e (sig % 2 ^ 52)) = signFactor s * (sig * 2 ^ (e - 52)) := by
  have hm : magnitude (mkRepr .normal s e (sig % 2 ^ 52)) = sig := by
    simp only [magnitude, mkRepr]
    omega
  rw [realValue_eq, hm]
  rfl

/-- The leading power of two of a product stands 52 places above the unit of the first rounding. -/
theorem le_of_normShift {p : Nat} (h1 : 2 ^ 104 ≤ p) (h2 : p < 2 ^ 106) : 2 ^ 52 * 2 ^ normShift p ≤ p := by
  rcases normShift_cases 0 h2 with ⟨hp, _, hs, _⟩ | ⟨hp, _, hs, _⟩ <;> rw [hs] <;> omega

/-- A Normal result denotes the product rounded at the normalising shift, on the product's own scale; its significand is
even where that rounded value is. -/
theorem NumericOperands.normal_result {a b : FloatRepr} (h : NumericOperands a b) {s : Bool}
    (hcls : (resolveRange s (roundedProductOf a b)).cls = .normal) :
    realValue (resolveRange s (roundedProductOf a b)) =
        signFactor s * ((rneShift (productOf a b) (normShift (productOf a b))).rounded * 2 ^ normShift (productOf a b) *
          2 ^ (exponentOf a b - 104)) ∧
      ((rneShift (productOf a b) (normShift (productOf a b))).rounded % 2 = 0 →
        (resolveRange s (roundedProductOf a b)).significand % 2 = 0) := by
  obtain ⟨p1, p2⟩ := h.productOf_bounds
  obtain ⟨s1, s2⟩ := h.rounded_sig_bounds
  obtain ⟨m, _, hexp, hvalue, hparity⟩ := roundProduct_value (exponentOf a b) p1 p2
  rw [← roundedProductOf_eq] at hexp hvalue hparity
  rw [resolveRange_eq_of_cls_normal hcls, realValue_mkRepr_normal _ _ s1 s2]
  refine ⟨?_, fun hq => ?_⟩
  · have hscale : (roundedProductOf a b).exp - 52 = exponentOf a b - 104 + m := by omega
    have hcast : ((roundedProductOf a b).sig : ℚ) * 2 ^ m =
        (rneShift (productOf a b) (normShift (productOf a b))).rounded * 2 ^ normShift (productOf a b) := by
      exact_mod_cast hvalue
    rw [hscale, two_zpow_add_natCast, ← mul_assoc _ _ (2 ^ (exponentOf a b - 104) : ℚ), hcast]
  · have hsig := hparity hq
    show (roundedProductOf a b).sig % 2 ^ 52 % 2 = 0
    omega

/-- Settles O42: after taking off the sign, the product is a number of units, the result its nearest-even multiple, and
every double falls under `NearestEven.closest_scaled`. -/
theorem normalResultIsTheNearestDouble : Obligations.NormalResultIsTheNearestDouble := by
  intro a b p s ha hb ca cb hp hcls r hr _
  have hab := NumericOperands.of_cls ha hb ca cb
  obtain ⟨p1, p2⟩ := hab.productOf_bounds
  obtain rfl := hab.eq_resolveRange hp
  obtain ⟨hvalue, hparity⟩ := hab.normal_result hcls
  have hunit : (0 : ℚ) < 2 ^ (exponentOf a b - 104) := by positivity
  have hnear := rneShift_nearestEven (normShift_pos (productOf a b)) (v := productOf a b)
  obtain ⟨hle, htie⟩ := hnear.closest_scaled (le_of_normShift p1 (by omega)) hunit
    (realValue_below_or_multiple ((wf_iff r).1 hr).1 (resultSign a b) _ _)
  rw [hab.realValue_mul, abs_sub_signFactor_mul, abs_sub_signFactor_mul, hvalue, signFactor_mul_cancel]
  refine ⟨hle, fun he => (htie he).imp (fun hy => ?_) hparity⟩
  rw [← hy, signFactor_mul_cancel]

end Sys2Proof.Machine
end

section
/-! The obligations of the top-level family (44_fmul64.md R130 to R134): FMUL64 as the chained stages, its word by
operand classes, and its algebraic laws. -/

namespace Sys2Proof.Machine

/-! ### FMUL64 as the chained stages (R130, R131, R132) -/

theorem decomposeWord_wfx (x : Word) : wfx (decomposeWord x) = true := wfx_of_wf (decomposeWord_wf x)

/-- FMUL64 shows the two records, their product and the product's own word, and refuses nothing. -/
theorem exec_fmul64 (x y : Word) (s : State) :
    exec (.fmul64 x y) s = .next { s with top := some {
      aBits := x, bBits := y, pBits := (multiplyRecord (decomposeWord x) (decomposeWord y)).rawBits,
      aRepr := decomposeWord x, bRepr := decomposeWord y,
      pRepr := multiplyRecord (decomposeWord x) (decomposeWord y) } } :=
  (exec_next_iff _ s _).2 ⟨_, by rw [presentedBy, fmul64Ports_eq]; rfl, rfl⟩

/-- Settles O45: each stage shows its own result, the last by `compose_multiplyRecord`. -/
theorem fmulIsTheCompositionAndTotal : Obligations.FmulIsTheCompositionAndTotal := by
  intro x y s
  exact ⟨_, _, _, _, exec_fmul64 x y s, exec_decompose .a x s, exec_decompose .b y s,
    exec_multiply_of_wfx (decomposeWord_wfx x) (decomposeWord_wfx y) s,
    (exec_compose_eq_next_iff _ s _).2 (compose_multiplyRecord (decomposeWord_wfx x) (decomposeWord_wfx y))⟩

/-- Settles O46: `exec_fmul64` shows the product's own word. -/
theorem fmulWordIsTheProductRawBits : Obligations.FmulWordIsTheProductRawBits := by
  intro x y s
  exact ⟨_, exec_fmul64 x y s, rfl, rfl, rfl⟩

/-! ### The word by operand classes (R133) -/

/-- A word's record has the class whose condition of R42 the word meets. -/
theorem isClassWord_iff (c : FloatClass) (x : Word) : IsClassWord c x ↔ (decomposeWord x).cls = c := by
  rw [decomposeWord_cls, classOfWord_eq_iff_isClassWord]

theorem isFiniteNonzeroWord_iff (x : Word) :
    isNormalWord x ∨ isSubnormalWord x ↔ finiteNonzero (decomposeWord x) = true := by
  rw [finiteNonzero_iff]
  exact or_congr (isClassWord_iff .normal x) (isClassWord_iff .subnormal x)

/-- The XOR sign of two words' records, as a number. -/
theorem resultSign_toNat (x y : Word) :
    (resultSign (decomposeWord x) (decomposeWord y)).toNat = (wordSign x + wordSign y) % 2 := by
  rw [wordSign, wordSign, ← signField_toNat, ← signField_toNat]
  show (signField x ^^ signField y).toNat = _
  cases signField x <;> cases signField y <;> rfl

/-- The word of a record of WFX, extended or not, has the record's sign at bit 63. -/
theorem wordSign_rawBits {r : FloatRepr} (h : wfx r = true) : wordSign r.rawBits = r.sign.toNat := by
  rw [wordSign, ← signField_toNat]
  rcases (wfx_iff r).1 h with hw | hx
  · obtain ⟨hranges, hraw⟩ := (wf_iff r).1 hw
    have hbounds := wf_bounds hranges
    rw [hraw, signField_pack _ (by omega)]
  · obtain ⟨_, _, _, hraw⟩ := (extendedSubnormal_iff r).1 hx
    rw [hraw, signField_pack _ (by decide)]

/-- Settles O47: each row of R133 is a branch of R80. -/
theorem fmulResultByOperandClass : Obligations.FmulResultByOperandClass := by
  intro x y s
  have hnan (z : Word) : isNaNWord z ↔ (decomposeWord z).cls = .nan := isClassWord_iff .nan z
  have hinf (z : Word) : isInfinityWord z ↔ (decomposeWord z).cls = .infinity := isClassWord_iff .infinity z
  have hzero (z : Word) : isZeroWord z ↔ (decomposeWord z).cls = .zero := isClassWord_iff .zero z
  simp only [hnan, hinf, hzero, isFiniteNonzeroWord_iff, ← resultSign_toNat]
  refine ⟨_, exec_fmul64 x y s, rfl, rfl, fun hx => ?_, fun hx hy => ?_, fun h => ?_, fun h => ?_, fun h => ?_,
    fun fx fy => ?_⟩
  · rw [multiplyRecord_nan_left hx]
    rfl
  · rw [multiplyRecord_nan_right hx hy]
    rfl
  · rw [multiplyRecord_invalid ((infinityTimesZero_iff _ _).2 h),
      mkRepr_nan_rawBits_toNat _ invalidNanFraction_bounds.2]
  · rw [multiplyRecord_of_infinity h, mkRepr_infinity_rawBits_toNat]
  · rw [multiplyRecord_of_zero h, mkRepr_zero_rawBits_toNat]
  · rw [wordSign_rawBits (multiplyRecord_wfx (decomposeWord_wfx x) (decomposeWord_wfx y)),
      multiplyRecord_numeric fx fy]
    exact ⟨congrArg Bool.toNat (resolveRange_sign_cls _ _).1, rfl⟩

/-! ### Commutativity (R134) -/

/-- Settles O48: equal words are trivial, and different ones are not both NaN, so `multiplyRecord_comm` applies. -/
theorem fmulCommutesUnlessTwoNaNs : Obligations.FmulCommutesUnlessTwoNaNs := by
  intro x y s h
  have hcomm : multiplyRecord (decomposeWord x) (decomposeWord y) =
      multiplyRecord (decomposeWord y) (decomposeWord x) := by
    by_cases hxy : x = y
    · rw [hxy]
    · exact multiplyRecord_comm fun ⟨hx, hy⟩ => h ⟨(isClassWord_iff .nan x).2 hx, (isClassWord_iff .nan y).2 hy, hxy⟩
  refine ⟨_, _, _, _, exec_fmul64 x y s, ?_⟩
  rw [hcomm]
  exact exec_fmul64 y x s

/-! ### Powers of two (R134) -/

/-- Rounding a multiple of the unit discards nothing. -/
theorem rneShift_mul_two_pow (q : Nat) {n : Nat} (h : 1 ≤ n) :
    (rneShift (q * 2 ^ n) n).guard = false ∧ (rneShift (q * 2 ^ n) n).sticky = false ∧
      (rneShift (q * 2 ^ n) n).rounded = q := by
  have hmod : q * 2 ^ n % 2 ^ n = 0 := Nat.mul_mod_left q _
  have hdiv : q * 2 ^ n / 2 ^ n = q := Nat.mul_div_cancel q (Nat.two_pow_pos n)
  have hexact := (guard_or_sticky_iff (v := q * 2 ^ n) h).not_left.2 hmod
  have hround := rneShift_cases (v := q * 2 ^ n) h
  have hpos := Nat.two_pow_pos n
  rw [not_or, Bool.not_eq_true, Bool.not_eq_true] at hexact
  exact ⟨hexact.1, hexact.2, by omega⟩

section
variable {a b : FloatRepr}

theorem unpack_powerOfTwo (hc : b.cls = .normal) (hm : b.significand = 0) : unpack b = (b.exponent, 2 ^ 52) := by
  rw [unpack_normal hc, hm, Nat.add_zero]

theorem productOf_powerOfTwo (hc : b.cls = .normal) (hm : b.significand = 0) :
    productOf a b = (unpack a).2 * 2 ^ 52 := by
  rw [productOf, unpack_powerOfTwo hc hm]

theorem NumericOperands.normShift_powerOfTwo (h : NumericOperands a b) (hc : b.cls = .normal)
    (hm : b.significand = 0) : normShift (productOf a b) = 52 := by
  obtain ⟨_, ma, _⟩ := h.unpack_left
  rw [productOf_powerOfTwo hc hm]
  rcases normShift_cases 0 (p := (unpack a).2 * 2 ^ 52) (by omega) with ⟨_, _, hs, _⟩ | ⟨hp, _⟩
  · exact hs
  · omega

/-- Against a Normal power of two the rounded product is the other operand's unpacked significand, its exponent moved
by that of the power. -/
theorem NumericOperands.roundedProductOf_powerOfTwo (h : NumericOperands a b) (hc : b.cls = .normal)
    (hm : b.significand = 0) : roundedProductOf a b = ⟨(unpack a).2, (unpack a).1 + b.exponent⟩ := by
  obtain ⟨_, ma, _⟩ := h.unpack_left
  obtain ⟨p1, p2⟩ := h.productOf_bounds
  have hexp : exponentOf a b = (unpack a).1 + b.exponent := by rw [exponentOf, unpack_powerOfTwo hc hm]
  have hround := (rneShift_mul_two_pow (unpack a).2 (n := 52) (by decide)).2.2
  rw [roundedProductOf_eq, ← hexp]
  rw [productOf_powerOfTwo hc hm] at p1 p2 ⊢
  rcases roundProduct_cases (exponentOf a b) p1 p2 with ⟨_, _, _, _, _, hr⟩ | ⟨_, _, _, hover, _⟩ | ⟨hp, _⟩
  · rw [hr, hround]
  · omega
  · omega

end

/-- Settles O51: the product is the unpacked significand at shift 52, and unpacking keeps the magnitude. -/
theorem powerOfTwoFirstRoundingIsExact : Obligations.PowerOfTwoFirstRoundingIsExact := by
  intro a b ha hb ca cb hm
  have hab := NumericOperands.of_cls ha (wfx_of_wf hb) ca (.inl cb)
  obtain ⟨hguard, hsticky, _⟩ := rneShift_mul_two_pow (unpack a).2 (n := 52) (by decide)
  rw [hab.normShift_powerOfTwo cb hm, hab.roundedProductOf_powerOfTwo cb hm, productOf_powerOfTwo cb hm]
  refine ⟨hguard, hsticky, ?_⟩
  rw [abs_realValue, unpack_value hab.wfx_left hab.finite_left, mul_assoc, ← zpow_add₀ two_ne_zero]
  congr 2
  ring

/-! ### Identity (R134) -/

/-- A well-formed record is the one `mkrepr` builds from its other fields. -/
theorem mkRepr_of_wf {r : FloatRepr} (h : wf r = true) : mkRepr r.cls r.sign r.exponent r.significand = r := by
  obtain ⟨hranges, hraw⟩ := (wf_iff r).1 h
  obtain ⟨hzero, _, _, hinf, _⟩ := fieldRanges_rows hranges
  have hfrac : packFraction r.cls r.significand = r.significand := by
    unfold packFraction
    split
    next hc => exact (hzero hc).2.symm
    next => rfl
    next hc => exact (hinf hc).2.symm
    next => rfl
    next => rfl
  obtain ⟨_, _, _, _, _⟩ := r
  simp only at hraw hfrac
  rw [mkRepr, hfrac, ← hraw]

/-- Range resolution undoes unpacking: a Normal record keeps its exponent, a Subnormal one is shifted back by what it
was shifted up. -/
theorem resolveRange_unpack {r : FloatRepr} (h : wf r = true) (hf : finiteNonzero r = true) :
    resolveRange r.sign ⟨(unpack r).2, (unpack r).1⟩ = r := by
  obtain ⟨_, hsub, hnorm, _⟩ := fieldRanges_rows ((wf_iff r).1 h).1
  have hmk := mkRepr_of_wf h
  rcases (finiteNonzero_iff r).1 hf with hc | hc
  · obtain ⟨h1, h2, h3⟩ := hnorm hc
    have hE : candidateField r.exponent = r.exponent + 1023 := rfl
    have hsig : (2 ^ 52 + r.significand) % 2 ^ 52 = r.significand := by omega
    rw [unpack_normal hc, resolveRange_normal _ (by dsimp only; omega) (by dsimp only; omega), hsig, ← hc, hmk]
  · obtain ⟨hexp, h1, h2⟩ := hsub hc
    obtain ⟨b1, b2⟩ := renormalised_bounds h1 (by omega)
    have hlog : Nat.log2 r.significand < 52 := (Nat.log2_lt (by omega)).2 (by omega)
    have hn : 1 ≤ 52 - Nat.log2 r.significand := by omega
    have hback := (rneShift_mul_two_pow r.significand hn).2.2
    rw [unpack_subnormal (wfx_of_wf h) hc, resolveRange_of_shift _ hn (by dsimp only; omega),
      underflowResult_eq _ b1 b2 hn, hback, if_neg (by omega), ← hc, ← hexp, hmk]

/-- The record of 1.0. -/
def oneRecord : FloatRepr := decomposeWord 0x3FF0000000000000#64

/-- 1.0 is the positive Normal power of two with exponent 0. -/
theorem oneRecord_fields :
    oneRecord.cls = .normal ∧ oneRecord.sign = false ∧ oneRecord.exponent = 0 ∧ oneRecord.significand = 0 := by
  decide

theorem resultSign_one (r : FloatRepr) : resultSign r oneRecord = r.sign := by
  obtain ⟨_, hsign, _, _⟩ := oneRecord_fields
  rw [resultSign, hsign, Bool.xor_false]

theorem numericPath_one {r : FloatRepr} (h : wf r = true) (hf : finiteNonzero r = true) :
    numericPath r oneRecord r.sign = r := by
  obtain ⟨hcls, _, hexp, hsig⟩ := oneRecord_fields
  have hab : NumericOperands r oneRecord :=
    ⟨wfx_of_wf h, decomposeWord_wfx _, hf, (finiteNonzero_iff _).2 (.inl hcls)⟩
  rw [numericPath, hab.roundedProductOf_powerOfTwo hcls hsig, hexp, Int.add_zero]
  exact resolveRange_unpack h hf

/-- 1.0 as second operand returns any well-formed record unchanged, NaN records included. -/
theorem multiplyRecord_one {r : FloatRepr} (h : wf r = true) : multiplyRecord r oneRecord = r := by
  obtain ⟨hcls, _, _, _⟩ := oneRecord_fields
  obtain ⟨hzero, _, _, hinf, _⟩ := fieldRanges_rows ((wf_iff r).1 h).1
  have hmk := mkRepr_of_wf h
  have hfinite (hf : finiteNonzero r = true) : multiplyRecord r oneRecord = r := by
    rw [multiplyRecord_numeric hf ((finiteNonzero_iff _).2 (.inl hcls)), resultSign_one, numericPath_one h hf]
  cases hc : r.cls with
  | normal => exact hfinite ((finiteNonzero_iff r).2 (.inl hc))
  | subnormal => exact hfinite ((finiteNonzero_iff r).2 (.inr hc))
  | zero =>
    obtain ⟨hexp, hsig⟩ := hzero hc
    rw [hc, hexp, hsig] at hmk
    rw [multiplyRecord_of_zero (.inl ⟨hc, by simp [hcls], by simp [hcls]⟩), resultSign_one, hmk]
  | infinity =>
    obtain ⟨hexp, hsig⟩ := hinf hc
    rw [hc, hexp, hsig] at hmk
    rw [multiplyRecord_of_infinity (.inl ⟨hc, by simp [hcls], by simp [hcls]⟩), resultSign_one, hmk]
  | nan => exact multiplyRecord_nan_left hc

/-- Settles O49: 1.0 is no NaN, so either order gives the record that `multiplyRecord_one` returns. -/
theorem oneIsTheIdentity : Obligations.OneIsTheIdentity := by
  intro x s
  have hright := multiplyRecord_one (decomposeWord_wf x)
  have hleft : multiplyRecord oneRecord (decomposeWord x) = decomposeWord x := by
    rw [multiplyRecord_comm (by simp [oneRecord_fields.1]), hright]
  refine ⟨_, _, exec_fmul64 _ x s, ?_, exec_fmul64 x _ s, ?_⟩
  · exact congrArg FloatRepr.rawBits hleft
  · exact congrArg FloatRepr.rawBits hright

/-! ### Sign symmetry (R134) -/

/-- Flipping bit 63 of a word adds 2^63, up to the carry out of it. -/
theorem xor_signBit_toNat (x : Word) : (x ^^^ 0x8000000000000000#64).toNat = (x.toNat + 2 ^ 63) % 2 ^ 64 := by
  have hx := x.isLt
  have hhigh := Nat.xor_div_two_pow (a := x.toNat) (b := 2 ^ 63) (n := 63)
  have hlow := Nat.xor_mod_two_pow (a := x.toNat) (b := 2 ^ 63) (n := 63)
  rw [BitVec.toNat_xor]
  change (x.toNat ^^^ 2 ^ 63) % 2 ^ 63 = x.toNat % 2 ^ 63 ^^^ 0 at hlow
  change (x.toNat ^^^ 2 ^ 63) / 2 ^ 63 = x.toNat / 2 ^ 63 ^^^ 1 at hhigh
  change x.toNat ^^^ 2 ^ 63 = _
  rw [Nat.xor_zero] at hlow
  obtain h | h : x.toNat / 2 ^ 63 = 0 ∨ x.toNat / 2 ^ 63 = 1 := by omega
  · rw [h, Nat.zero_xor] at hhigh
    omega
  · rw [h, Nat.xor_self] at hhigh
    omega

theorem signField_xor_signBit (x : Word) : signField (x ^^^ 0x8000000000000000#64) = !signField x := by
  simp [signField]

theorem expField_xor_signBit (x : Word) : expField (x ^^^ 0x8000000000000000#64) = expField x := by
  apply BitVec.eq_of_toNat_eq
  rw [expField_toNat, expField_toNat, xor_signBit_toNat]
  omega

theorem fracField_xor_signBit (x : Word) : fracField (x ^^^ 0x8000000000000000#64) = fracField x := by
  apply BitVec.eq_of_toNat_eq
  rw [fracField_toNat, fracField_toNat, xor_signBit_toNat]
  omega

theorem pack_not (s : Bool) (field frac : Nat) : pack (!s) field frac = pack s field frac ^^^ 0x8000000000000000#64 := by
  apply BitVec.eq_of_toNat_eq
  rw [xor_signBit_toNat, pack_toNat_mod, pack_toNat_mod]
  cases s
  · simp only [Bool.not_false, Bool.toNat_true, Bool.toNat_false]
    omega
  · simp only [Bool.not_true, Bool.toNat_true, Bool.toNat_false]
    omega

/-- A record with its sign flipped, bit 63 of its word with it. -/
def flipSign (r : FloatRepr) : FloatRepr :=
  { r with sign := !r.sign, rawBits := r.rawBits ^^^ 0x8000000000000000#64 }

theorem decomposeWord_xor_signBit (x : Word) :
    decomposeWord (x ^^^ 0x8000000000000000#64) = flipSign (decomposeWord x) := by
  rw [decomposeWord, signField_xor_signBit, expField_xor_signBit, fracField_xor_signBit]
  rfl

theorem mkRepr_not (c : FloatClass) (s : Bool) (e : Int) (m : Nat) : mkRepr c (!s) e m = flipSign (mkRepr c s e m) := by
  rw [mkRepr, pack_not]
  rfl

theorem underflowResult_not (s : Bool) (sig k : Nat) :
    underflowResult (!s) sig k = flipSign (underflowResult s sig k) := by
  unfold underflowResult
  split_ifs
  · exact mkRepr_not .zero s 0 0
  · exact mkRepr_not .zero s 0 0
  · exact mkRepr_not .subnormal s _ _

theorem resolveRange_not (s : Bool) (r : Scaled) : resolveRange (!s) r = flipSign (resolveRange s r) := by
  unfold resolveRange
  split_ifs
  · exact mkRepr_not .infinity s 0 0
  · exact underflowResult_not s _ _
  · exact mkRepr_not .normal s _ _

theorem resultSign_flipSign (a b : FloatRepr) : resultSign (flipSign a) b = !resultSign a b := Bool.not_xor _ _

/-- Without a NaN operand every branch of R80 uses the signs through their XOR only, so flipping one flips the
product's. -/
theorem multiplyRecord_flipSign {a b : FloatRepr} (ha : a.cls ≠ .nan) (hb : b.cls ≠ .nan) :
    multiplyRecord (flipSign a) b = flipSign (multiplyRecord a b) := by
  rcases multiply_branches a b with h | ⟨_, h⟩ | hiz | ⟨_, _, hiz, hi⟩ | ⟨_, _, ia, ib, hz⟩ | ⟨fa, fb⟩
  · exact absurd h ha
  · exact absurd h hb
  · rw [multiplyRecord_invalid hiz, multiplyRecord_invalid (a := flipSign a) hiz, resultSign_flipSign, mkRepr_not]
  · rw [multiplyRecord_infinity ha hb hiz hi, multiplyRecord_infinity (a := flipSign a) ha hb hiz hi,
      resultSign_flipSign, mkRepr_not]
  · rw [multiplyRecord_zero ha hb ia ib hz, multiplyRecord_zero (a := flipSign a) ha hb ia ib hz, resultSign_flipSign,
      mkRepr_not]
  · rw [multiplyRecord_numeric fa fb, multiplyRecord_numeric (a := flipSign a) fa fb, resultSign_flipSign]
    exact resolveRange_not _ (roundedProductOf a b)

/-- Settles O50: `multiplyRecord_flipSign` for the first operand, and for the second through `multiplyRecord_comm`. -/
theorem flippingAnOperandSignFlipsTheResultSign : Obligations.FlippingAnOperandSignFlipsTheResultSign := by
  intro x y s hx hy
  have nx : (decomposeWord x).cls ≠ .nan := fun h => hx ((isClassWord_iff .nan x).2 h)
  have ny : (decomposeWord y).cls ≠ .nan := fun h => hy ((isClassWord_iff .nan y).2 h)
  have hleft : multiplyRecord (decomposeWord (x ^^^ 0x8000000000000000#64)) (decomposeWord y) =
      flipSign (multiplyRecord (decomposeWord x) (decomposeWord y)) := by
    rw [decomposeWord_xor_signBit, multiplyRecord_flipSign nx ny]
  have hright : multiplyRecord (decomposeWord x) (decomposeWord (y ^^^ 0x8000000000000000#64)) =
      flipSign (multiplyRecord (decomposeWord x) (decomposeWord y)) := by
    rw [decomposeWord_xor_signBit, multiplyRecord_comm fun h => nx h.1, multiplyRecord_flipSign ny nx,
      multiplyRecord_comm fun h => ny h.1]
  refine ⟨_, _, _, exec_fmul64 x y s, exec_fmul64 _ y s, exec_fmul64 x _ s, ?_, ?_⟩
  · exact congrArg FloatRepr.rawBits hleft
  · exact congrArg FloatRepr.rawBits hright

end Sys2Proof.Machine
end

section
/-! The obligation of the exceptions family (60_exceptions.md R140, R144): what a refusal says of the instruction, one
lemma for each sub-block that can refuse. -/

namespace Sys2Proof.Machine

/-- COMPOSE is refused exactly outside its domain (R77). -/
theorem exec_compose_eq_refused_iff (q : FloatRepr) (s : State) (r : Refusal) :
    exec (.compose q) s = .refused r ↔ ¬ inComposeDomain q ∧ r = .composeOutsideDomain := by
  by_cases hq : inComposeDomain q
  · simp [exec_compose_of_inDomain hq, hq]
  · simp [exec_compose_of_not_inDomain hq, hq, eq_comm]

/-- MULTIPLY is refused exactly outside its domain, by the name of the loop of R101 where that would not end (R90). -/
theorem exec_multiply_refused_iff (a b : FloatRepr) (s : State) (r : Refusal) :
    exec (.multiply a b) s = .refused r ↔ ¬ (multiplyOperand a = true ∧ multiplyOperand b = true) ∧
      r = if unpackDiverges a b then .unpackNeverEnds else .multiplyOutsideDomain := by
  by_cases hab : multiplyOperand a = true ∧ multiplyOperand b = true
  · simp [exec_multiply_of_operands hab.1 hab.2, hab]
  · rw [exec_multiply_outside hab, Host.Outcome.refused.injEq, eq_comm, iff_and_self]
    exact fun _ => hab

/-- At a decomposer's ports only a class row whose fields are outside its class is refused, DECOMPOSE never. -/
theorem exec_decomposer_eq_refused_iff {i : Instr} {d : DecomposerId} (hd : i.subBlock = .decomposer d) (s : State)
    (r : Refusal) : exec i s = .refused r ↔ i.wellFormed = false ∧ r = .operandNotInClass := by
  rw [exec_refused_iff, eq_comm (a := r)]
  cases i with
  | decompose _ | classZero _ | classInfinity _ => simp [presentedBy, Instr.wellFormed]
  | classSubnormal _ f | classNaN _ f => by_cases hf : f = 0#52 <;> simp [presentedBy, Instr.wellFormed, hf]
  | classNormal _ e _ =>
    by_cases h0 : e = 0#11
    · simp [presentedBy, Instr.wellFormed, h0]
    · by_cases h1 : e = 2047#11 <;> simp [presentedBy, Instr.wellFormed, h0, h1]
  | compose _ | multiply _ _ | fmul64 _ _ => cases hd

/-- Settles O55: by the sub-block that refuses; FMUL64 completes by `exec_fmul64`. -/
theorem onlyIllFormedOperandsAreRefused : Obligations.OnlyIllFormedOperandsAreRefused := by
  intro i s r h
  cases i with
  | compose q =>
    obtain ⟨hq, hr⟩ := (exec_compose_eq_refused_iff q s r).1 h
    exact .inl ⟨q, rfl, hq, hr⟩
  | multiply a b =>
    obtain ⟨hab, hr⟩ := (exec_multiply_refused_iff a b s r).1 h
    refine .inr (.inl ⟨a, b, rfl, by rwa [← multiplyOperand_iff, ← multiplyOperand_iff], ?_⟩)
    split at hr
    · exact .inr hr
    · exact .inl hr
  | fmul64 x y =>
    rw [exec_fmul64] at h
    cases h
  | _ =>
    obtain ⟨hw, hr⟩ := (exec_decomposer_eq_refused_iff rfl s r).1 h
    exact .inr (.inr ⟨hw, ⟨_, rfl⟩, hr⟩)

end Sys2Proof.Machine
end

section
/-! The obligations of the reset and hazards family (70_reset_and_hazards.md R161, R164): the step that presents
nothing, and the outputs that follow the inputs beside them. -/

namespace Sys2Proof.Machine

/-! ### The steps that evaluate nothing (R51, R161) -/

theorem step_of_pending_nil {s : State} (hp : s.pending = []) : step s = .next s := by
  simp [step, hp]

theorem step_of_decode_error {s : State} {d : Drive} {rest : List Drive} (hp : s.pending = d :: rest)
    (hd : decode d = .error .reservedClassCode) : step s = .refused .reservedClassCode := by
  simp [step, hp, hd]

/-- Settles O6: the two steps that evaluate nothing, each by its own equation. -/
theorem stepIdlesOrRefuses : Obligations.StepIdlesOrRefuses :=
  ⟨fun _ => step_of_pending_nil, fun _ _ _ => step_of_decode_error⟩

/-! ### Outputs following inputs (R161, R164) -/

/-- Every presentation keeps the outputs following the inputs: what was presented is the result of the sub-block's
operation, and the rest stood there before. -/
theorem State.present_portsFollow {i : Instr} {s : State} {p : Presented} (hs : portsFollow s)
    (hp : presentedBy i = .ok p) : portsFollow (s.present p) := by
  obtain ⟨hd, hr, hm, ht⟩ := hs
  refine ⟨fun d q hq => ?_, fun q hq => ?_, fun q hq => ?_, fun q hq => ?_⟩
  · obtain rfl | hold := State.present_decomposer_cases hq
    · exact presentedBy_decomposer hp
    · exact hd d q hold
  · obtain rfl | hold := State.present_recomposer_cases hq
    · exact presentedBy_recomposer hp
    · exact hr q hold
  · obtain rfl | hold := State.present_multiplier_cases hq
    · exact presentedBy_multiplier hp
    · exact hm q hold
  · obtain rfl | hold := State.present_top_cases hq
    · exact presentedBy_top hp
    · exact ht q hold

/-- Settles O56: an idle step changes nothing, and any other presents one result. -/
theorem stepKeepsOutputsFollowingInputs : Obligations.StepKeepsOutputsFollowingInputs := by
  intro s t hs h
  exact step_keeps (fun _ _ hi => hi) (fun _ _ _ hi hp => State.present_portsFollow hi hp) hs h

end Sys2Proof.Machine
end
